-- ==== Sys2Proof/Word.lean ====
section
/-! DEFINITION. The word types of the core (00_scope.md R6, R10): every register and memory value is an unsigned
bit vector; an operation that the spec computes on unbounded integers converts with toNat first. -/

namespace Sys2Proof

/-- An 8-bit value: a general register, a timer, a memory byte, an immediate kk (R6, R20). -/
abbrev Byte := BitVec 8

/-- A 16-bit value: pc, I, a call-stack entry, an opcode (R6, R23, R25, R32, D28). -/
abbrev Word := BitVec 16

/-- A 12-bit address immediate nnn (R6, R71). -/
abbrev Imm12 := BitVec 12

/-- The index of one of the 16 general registers V0..VF (R20). -/
abbrev Reg := Fin 16

/-- One row of the screen: 64 one-bit pixels, the leftmost column the most significant bit (R31, log 8). -/
abbrev PixelRow := BitVec 64

/-- The framebuffer: 32 rows, row 0 the top (R31). -/
abbrev Framebuffer := Vector PixelRow 32

end Sys2Proof
end

