-- ==== Sys2Proof/Config.lean ====
section
/-! DEFINITION. What is fixed for this hardware (00_scope.md R6) and its one free value, the random byte (R34, R45).
The parameter FONT stands in Machine/Ops.lean beside the memory that it initialises. -/

namespace Sys2Proof

/-- `MEM_SIZE` (R6): addresses 0x000..0xFFF. -/
@[simp] abbrev Config.memSize : Nat := 0x1000

/-- `FONT_BASE` (R6). -/
@[simp] abbrev Config.fontBase : Nat := 0x050

/-- `GLYPH_BYTES` (R6). -/
@[simp] abbrev Config.glyphBytes : Nat := 5

/-- `PROG_BASE` (R6): where `load` copies a program to, and the pc at reset. -/
@[simp] abbrev Config.progBase : Nat := 0x200

/-- `MAX_IMAGE` (R6): 4096 - 0x200 = 3584 bytes. -/
@[simp] abbrev Config.maxImage : Nat := Config.memSize - Config.progBase

/-- `FLAG_REG` (R6): VF. -/
@[simp] abbrev Config.flagReg : Reg := 0xF

/-- The random source (R34, R45, D17): the byte that the n-th call of RandomByte() draws. A free value: nothing
constrains it (log 3). -/
opaque Config.randomByte : Nat → Byte

end Sys2Proof
end

