-- ==== Sys2Proof/Machine/State.lean ====
section
/-! DEFINITION. The state of the core (10_state.md R20 to R36, 20_memory.md R50), the state after reset
(70_reset_and_hazards.md R231), and the two reason types of the interface. -/

namespace Sys2Proof.Machine

/-- The fault reasons of 60_exceptions.md R201. They are recorded in the `fault` register by a NEXT state; none of them
is a stop of the model (log 1). -/
inductive FaultReason where
  /-- code 1, raised by 2nnn when sp = 16 (R103) -/
  | stackOverflow
  /-- code 2, raised by 00EE when sp = 0 (R104) -/
  | stackUnderflow
  /-- code 3, raised by fetch, Dxyn, Fx33, Fx55, Fx65 when an address to access is above 0xFFF (R54 to R56, R91) -/
  | memoryOutOfRange
  /-- code 4, raised by fetch when pc is odd (R91) -/
  | misalignedFetch
  /-- code 5, raised by Ex9E and ExA1 when Vx > 15 (R180, R181) -/
  | keyIndexOutOfRange
  deriving DecidableEq, Repr

/-- The record that the fault register holds (R33): the reason, the address of the instruction, and the lowest
out-of-range address (0 for every reason but `memoryOutOfRange`). -/
structure FaultRecord where
  reason : FaultReason
  pc : Word
  addr : Word
  deriving DecidableEq, Repr

/-- Memory as the bytes that differ from their reset contents: (address, byte) pairs, addresses strictly rising (log 6;
the canonical form is `Memory.wf` of Machine/Ops.lean). -/
abbrev Memory := List Host.Cell

/-- The complete state (R35), and the model's own counter of random draws. -/
structure State where
  /-- V0..VF (R20, R21) -/
  v : Vector Byte 16
  /-- I, the index register (R25) -/
  index : Word
  /-- the program counter (R23) -/
  pc : Word
  /-- the number of call-stack entries in use, 0..16 (R27) -/
  sp : Fin 17
  /-- stack[0..15], return addresses (R26) -/
  stack : Vector Word 16
  /-- the delay timer (R28) -/
  dt : Byte
  /-- the sound timer (R28, R29) -/
  st : Byte
  /-- key[0..15], true while pressed (R30) -/
  key : Vector Bool 16
  /-- the framebuffer (R31) -/
  fb : Framebuffer
  /-- the opcode latch (R32) -/
  opcode : Word
  /-- the fault status, `none` or a record (R33) -/
  fault : Option FaultRecord
  /-- the 4096 bytes of memory (R50) -/
  mem : Memory
  /-- how many random bytes have been drawn: the model's own field, which selects the next free value (R34, log 3) -/
  draws : Nat
  deriving DecidableEq, Repr

/-- The reasons for which the model stops with a fault: there are none. The spec's own faults are entries into a halted
state that the spec describes in full (R90, R202, R204), so they are next states (log 1). Nothing raises a value of this
type; that is safe, since no behaviour is left out. -/
inductive Fault where
  deriving DecidableEq, Repr

/-- The reasons for which the model refuses an instruction. Safe: a refusal proves nothing about the hardware. -/
inductive Refusal where
  /-- raised by an arm of exec whose instruction has no meaning yet; no arm raises it -/
  | notModelled (mnemonic : String)
  deriving DecidableEq, Repr

/-- The state after construction (R230, R231): pc = 0x200, memory as preloaded (nothing differs from its reset
contents), no fault, everything else zero, false or unlit (the spec's decision D9, log 5). `draws` is the model's own
(log 3). -/
def State.reset : State :=
  { v := Vector.replicate 16 0
    index := 0
    pc := 0x200
    sp := 0
    stack := Vector.replicate 16 0
    dt := 0
    st := 0
    key := Vector.replicate 16 false
    fb := Vector.replicate 32 0
    opcode := 0
    fault := none
    mem := []
    draws := 0 }

end Sys2Proof.Machine
end

