-- ==== Sys2Proof/Machine/Ops.lean ====
section
/-! DEFINITION. The named operations over memory, registers, call stack, keys and screen, and the fault entry. Every
meaning is written over these. -/

namespace Sys2Proof.Machine

/-! ### The font and the reset contents of memory (20_memory.md R51, R52) -/

/-- The parameter FONT: 16 glyphs of 5 bytes, digit 0 first (R52; the spec's decision D19, log 4). -/
def fontBytes : List Byte :=
  [0xF0, 0x90, 0x90, 0x90, 0xF0] ++ [0x20, 0x60, 0x20, 0x20, 0x70] ++
  [0xF0, 0x10, 0xF0, 0x80, 0xF0] ++ [0xF0, 0x10, 0xF0, 0x10, 0xF0] ++
  [0x90, 0x90, 0xF0, 0x10, 0x10] ++ [0xF0, 0x80, 0xF0, 0x10, 0xF0] ++
  [0xF0, 0x80, 0xF0, 0x90, 0xF0] ++ [0xF0, 0x10, 0x20, 0x40, 0x40] ++
  [0xF0, 0x90, 0xF0, 0x90, 0xF0] ++ [0xF0, 0x90, 0xF0, 0x10, 0xF0] ++
  [0xF0, 0x90, 0xF0, 0x90, 0x90] ++ [0xE0, 0x90, 0xE0, 0x90, 0xE0] ++
  [0xF0, 0x80, 0x80, 0x80, 0xF0] ++ [0xE0, 0x90, 0x90, 0x90, 0xE0] ++
  [0xF0, 0x80, 0xF0, 0x80, 0xF0] ++ [0xF0, 0x80, 0xF0, 0x80, 0x80]

/-- What an address reads as while nothing has been written to it: its reset contents, FONT at 0x050..0x09F and 0
elsewhere (R51, R231). -/
def unlistedByte (a : Nat) : Byte :=
  if Config.fontBase ≤ a then fontBytes.getD (a - Config.fontBase) 0 else 0

/-! ### Memory -/

/-- The canonical form of memory: addresses strictly rising, each inside memory, no entry equal to what an unlisted
address reads as. Equal memories are equal lists. -/
abbrev Memory.wf (m : Memory) : Prop :=
  m.Pairwise (fun c d => c.1 < d.1) ∧ ∀ c ∈ m, c.1 < Config.memSize ∧ c.2 ≠ unlistedByte c.1

/-- The byte at an address (R50). The range check of R54 is `outOfRange?`, made before any access. -/
def readByte : Memory → Nat → Byte
  | [], a => unlistedByte a
  | c :: m, a => if a = c.1 then c.2 else readByte m a

/-- A cell in front of the cells above it, left out when it holds its reset contents. -/
def consCell (a : Nat) (b : Byte) (m : Memory) : Memory :=
  if b = unlistedByte a then m else (a, b) :: m

/-- `mem[a] <- b` (R55), keeping the canonical form. -/
def writeByte : Memory → Nat → Byte → Memory
  | [], a, b => consCell a b []
  | c :: m, a, b =>
    if a < c.1 then consCell a b (c :: m)
    else if a = c.1 then consCell a b m
    else c :: writeByte m a b

/-- The range check of every access to n bytes from address p on (R54 to R56): the lowest out-of-range address if there
is one. Addresses are unbounded naturals, never wrapped (R147, D22); n = 0 accesses nothing (R165). The check is
`p + n - 1 > 0xFFF` of R144, R145, R146 and R160, and the address `max(p, 0x1000)`. -/
def outOfRange? (p n : Nat) : Option Word :=
  if 0 < n ∧ Config.memSize < p + n then some (BitVec.ofNat 16 (max p Config.memSize)) else none

/-- n bytes from address p on, ascending (R58). -/
def readBlock (m : Memory) (p n : Nat) : List Byte :=
  (List.range n).map fun k => readByte m (p + k)

/-- Store bytes from address p on, ascending (R58). -/
def writeBlock : Memory → Nat → List Byte → Memory
  | m, _, [] => m
  | m, p, b :: bs => writeBlock (writeByte m p b) (p + 1) bs

/-! ### General registers (R20, R21): no register is hardwired -/

/-- `V[x]`. -/
def State.getV (s : State) (x : Reg) : Byte := s.v[x]

/-- `V[x] <- b`. -/
def State.setV (s : State) (x : Reg) (b : Byte) : State := { s with v := s.v.set x b }

/-- `V[0xF] <- b`, the flag output of R21. -/
def State.setFlag (s : State) (b : Byte) : State := s.setV Config.flagReg b

/-- V0..Vx, in that order (R145). -/
def State.firstRegs (s : State) (x : Reg) : List Byte := s.v.toList.take (x.val + 1)

/-- `V[i] <- m[i]` for every i that the list reaches, the other registers unchanged (R146). -/
def State.loadRegs (s : State) (bs : List Byte) : State :=
  { s with v := Vector.ofFn fun r : Reg => bs.getD r.val s.v[r] }

/-! ### The other registers -/

/-- `I <- w` (R25). -/
def State.setIndex (s : State) (w : Word) : State := { s with index := w }

/-- `pc <- w` (R23). -/
def State.setPc (s : State) (w : Word) : State := { s with pc := w }

/-- `DT <- b` (R28). -/
def State.setDt (s : State) (b : Byte) : State := { s with dt := b }

/-- `ST <- b` (R28). -/
def State.setSt (s : State) (b : Byte) : State := { s with st := b }

/-- Memory replaced as a whole, by the result of `writeBlock`. -/
def State.setMem (s : State) (m : Memory) : State := { s with mem := m }

/-- The framebuffer replaced as a whole, by the result of a draw or a clear. -/
def State.setFb (s : State) (f : Framebuffer) : State := { s with fb := f }

/-- `key[k] <- pressed` (R40). -/
def State.putKey (s : State) (k : Fin 16) (pressed : Bool) : State := { s with key := s.key.set k pressed }

/-- The fetch step's writes: the opcode latched and pc advanced past it (R92, R93). -/
def State.latch (s : State) (w : Word) : State := { s with opcode := w, pc := s.pc + 2 }

/-- The skip of R105 to R108, R180, R181: `if c then pc <- (pc + 2) mod 65536`. -/
def State.skipIf (s : State) (c : Bool) : State := { s with pc := if c then s.pc + 2 else s.pc }

/-- The next random byte, `RandomByte()` (R34, R45): a free value (log 3). -/
def State.randomByte (s : State) : Byte := Config.randomByte s.draws

/-- One random byte has been drawn (R45). -/
def State.drawn (s : State) : State := { s with draws := s.draws + 1 }

/-! ### Call stack (R26, R27) -/

/-- `stack[sp] <- w; sp <- sp + 1`; `none` when all 16 entries are in use (R103). -/
def State.push? (s : State) (w : Word) : Option State :=
  if h : s.sp.val < 16 then
    some { s with stack := s.stack.set s.sp.val w h, sp := ⟨s.sp.val + 1, by omega⟩ }
  else none

/-- `sp <- sp - 1; pc <- stack[sp]`; `none` when the stack is empty. The popped entry stays in its slot (R104). -/
def State.pop? (s : State) : Option State :=
  if h : 0 < s.sp.val then
    some { s with sp := ⟨s.sp.val - 1, by omega⟩, pc := s.stack[s.sp.val - 1]'(by omega) }
  else none

/-! ### Keys (R30) -/

/-- `min { k | key[k] }`, or `none` while no key is pressed (R185). -/
def State.lowestKey? (s : State) : Option (Fin 16) := (List.finRange 16).find? fun k => s.key[k]

/-! ### Screen (R31) -/

/-- `fb[py][px]` with px = column, py = row; false outside the screen. -/
def pixel (f : Framebuffer) (px py : Nat) : Bool := (f[py]?.getD 0).getMsbD px

/-- The pixel at a position of the flat row-major sequence: `py * 64 + px` (R31). -/
def flatPixel (f : Framebuffer) (k : Nat) : Bool := pixel f (k % 64) (k / 64)

/-! ### Taking a fault (60_exceptions.md R202)

There is no vector, no saved status and no handler: the record is written and the cycle ends; the core then halts
(R90, R204). No instruction returns from a fault (R204, R206), so no return stands beside it. -/

/-- `fault <- (reason, fault_pc = a, fault_addr = info)`. -/
def State.takeFault (s : State) (reason : FaultReason) (a info : Word) : State :=
  { s with fault := some ⟨reason, a, info⟩ }

/-- `raise Fault(reason, info)` in the execute step: the writes of the fetch stand (R95), and the instruction's address
is pc - 2, since pc was advanced by 2 at fetch and no meaning writes pc before it raises (R93, R96, log 2). -/
def State.raise (s : State) (reason : FaultReason) (info : Word) : State := s.takeFault reason (s.pc - 2) info

/-- The numeric codes of R201 (D25). -/
def FaultReason.code : FaultReason → Nat
  | .stackOverflow => 1
  | .stackUnderflow => 2
  | .memoryOutOfRange => 3
  | .misalignedFetch => 4
  | .keyIndexOutOfRange => 5

/-- The code of the fault status: 0 for `none` (R201). -/
def faultCode : Option FaultRecord → Nat
  | none => 0
  | some r => r.reason.code

end Sys2Proof.Machine
end

