-- ==== Sys2Proof/Machine/Operands.lean ====
section
/-! DEFINITION. The operand forms and addressing modes (30_encoding.md R73, 43_index_memory.md R147): absolute,
absolute plus V0, I plus an offset, font glyph; and a register value as a key number. -/

namespace Sys2Proof.Machine

/-- `zext_16(nnn)` (R73). -/
def absolute (nnn : Imm12) : Word := nnn.zeroExtend 16

/-- `zext_16(nnn) + V0`, at most 0x10FE (R102). -/
def absolutePlusV0 (s : State) (nnn : Imm12) : Word := absolute nnn + (s.getV 0).zeroExtend 16

/-- The base address p = I of Dxyn, Fx33, Fx55 and Fx65, as an unbounded natural (R147). -/
def indexBase (s : State) : Nat := s.index.toNat

/-- `(I + V[x]) mod 65536` (R141). -/
def indexPlus (s : State) (x : Reg) : Word := s.index + (s.getV x).zeroExtend 16

/-- The address of the glyph of a value's low nibble: `0x050 + 5 * (a & 0xF)` (R142). -/
def glyphAddress (a : Byte) : Word :=
  BitVec.ofNat 16 (Config.fontBase + Config.glyphBytes * (a &&& 0xF).toNat)

/-- The key that a register value names; none when the value is above 15 (R180, R181). -/
def keyNumber? (a : Byte) : Option (Fin 16) := if h : a.toNat < 16 then some ⟨a.toNat, h⟩ else none

/-- The decimal digits of a byte, hundreds first: a / 100, (a / 10) mod 10, a mod 10 (R144). -/
def decimalDigits (a : Byte) : List Byte :=
  [BitVec.ofNat 8 (a.toNat / 100), BitVec.ofNat 8 (a.toNat / 10 % 10), BitVec.ofNat 8 (a.toNat % 10)]

end Sys2Proof.Machine
end

