-- ==== Sys2Proof/Machine/ControlFlow.lean ====
section
/-! DEFINITION. Control flow (41_control_flow.md R101 to R108). pc already holds the fetch address + 2 (R93); a target
is not checked here but at the next fetch (R109). -/

namespace Sys2Proof.Machine

/-- JP nnn (R101). -/
def execJp (nnn : Imm12) (s : State) : Host.Outcome State Fault Refusal := .next (s.setPc (absolute nnn))

/-- JP V0, nnn (R102). -/
def execJpV0Nnn (nnn : Imm12) (s : State) : Host.Outcome State Fault Refusal :=
  .next (s.setPc (absolutePlusV0 s nnn))

/-- CALL nnn (R103): push the return address and jump, or StackOverflow. -/
def execCall (nnn : Imm12) (s : State) : Host.Outcome State Fault Refusal :=
  match s.push? s.pc with
  | some t => .next (t.setPc (absolute nnn))
  | none => .next (s.raise .stackOverflow 0)

/-- RET (R104): pop into pc, or StackUnderflow. -/
def execRet (_u : BitVec 4) (s : State) : Host.Outcome State Fault Refusal :=
  match s.pop? with
  | some t => .next t
  | none => .next (s.raise .stackUnderflow 0)

/-- SE Vx, kk (R105). -/
def execSeVxKk (x : Reg) (kk : Byte) (s : State) : Host.Outcome State Fault Refusal :=
  .next (s.skipIf (s.getV x == kk))

/-- SNE Vx, kk (R106). -/
def execSneVxKk (x : Reg) (kk : Byte) (s : State) : Host.Outcome State Fault Refusal :=
  .next (s.skipIf (s.getV x != kk))

/-- SE Vx, Vy (R107). -/
def execSeVxVy (x y : Reg) (_u : BitVec 4) (s : State) : Host.Outcome State Fault Refusal :=
  .next (s.skipIf (s.getV x == s.getV y))

/-- SNE Vx, Vy (R108). -/
def execSneVxVy (x y : Reg) (_u : BitVec 4) (s : State) : Host.Outcome State Fault Refusal :=
  .next (s.skipIf (s.getV x != s.getV y))

end Sys2Proof.Machine
end

