-- ==== Sys2Proof/Machine/Flags.lean ====
section
/-! DEFINITION. The flag values that go to VF (10_state.md R24, 42_register_alu.md R126 to R130, 44_display.md R164).
Each is 0 or 1, computed from the exact unsigned result. -/

namespace Sys2Proof.Machine

/-- 1 or 0. -/
def flagOf (c : Bool) : Byte := if c then 1 else 0

/-- Carry of an addition: the unsigned sum exceeds 255 (R126). -/
def carryFlag (a b : Byte) : Byte := flagOf (decide (255 < a.toNat + b.toNat))

/-- Not-borrow of `minuend - subtrahend`: minuend >= subtrahend (R127, R128). -/
def notBorrowFlag (minuend subtrahend : Byte) : Byte := flagOf (decide (subtrahend.toNat ≤ minuend.toNat))

/-- The bit that a right shift moves out, bit 0 (R129). -/
def shiftedOutRight (a : Byte) : Byte := a &&& 1

/-- The bit that a left shift moves out, bit 7 (R130). -/
def shiftedOutLeft (a : Byte) : Byte := (a >>> 7) &&& 1

end Sys2Proof.Machine
end

