-- ==== Sys2Proof/Machine/Display.lean ====
section
/-! DEFINITION. The sprite-blit engine and the screen clear (44_display.md R160 to R166). The draw is written row by row
as an XOR with the sprite row shifted into place; that this equals the loop of R160 is a statement (log 8). -/

namespace Sys2Proof.Machine

/-- The pixels of one screen row that a sprite row byte toggles when its leftmost column is x0: column x0 + col is bit
7 - col (R162), and what would lie past column 63 is shifted out, that is clipped (R163). -/
def spriteMask (x0 : Nat) (b : Byte) : PixelRow := (b.zeroExtend 64 <<< 56) >>> x0

/-- The pixels of screen row py that a sprite with origin (x0, y0) toggles: sprite row r is drawn at row y0 + r (R162);
rows past 31 do not exist and are clipped (R163). -/
def rowMask (x0 y0 : Nat) (rows : List Byte) (py : Nat) : PixelRow :=
  if y0 ≤ py then spriteMask x0 (rows.getD (py - y0) 0) else 0

/-- XOR compositing (R164). -/
def blit (f : Framebuffer) (x0 y0 : Nat) (rows : List Byte) : Framebuffer :=
  Vector.ofFn fun py : Fin 32 => f[py] ^^^ rowMask x0 y0 rows py.val

/-- Collision: some toggled pixel was lit before (R164). -/
def collides (f : Framebuffer) (x0 y0 : Nat) (rows : List Byte) : Bool :=
  (List.finRange 32).any fun py => f[py] &&& rowMask x0 y0 rows py.val != 0

/-- DRW Vx, Vy, n (R160): coordinates latched first (R96, D10), the origin wraps (R161), VF is always written, last. -/
def execDrwVxVyN (x y : Reg) (n : BitVec 4) (s : State) : Host.Outcome State Fault Refusal :=
  match outOfRange? (indexBase s) n.toNat with
  | some a => .next (s.raise .memoryOutOfRange a)
  | none =>
    let x0 := (s.getV x).toNat % 64
    let y0 := (s.getV y).toNat % 32
    let rows := readBlock s.mem (indexBase s) n.toNat
    .next ((s.setFb (blit s.fb x0 y0 rows)).setFlag (flagOf (collides s.fb x0 y0 rows)))

/-- CLS (R166). -/
def execCls (_u : BitVec 4) (s : State) : Host.Outcome State Fault Refusal :=
  .next (s.setFb (Vector.replicate 32 0))

end Sys2Proof.Machine
end

