-- ==== Sys2Proof/Machine/IndexMemory.lean ====
section
/-! DEFINITION. Index, random, decimal and block-transfer instructions (43_index_memory.md R140 to R146). Every address
is checked before the first write, and a fault writes nothing (20_memory.md R56). I is never changed by an access
(R147). -/

namespace Sys2Proof.Machine

/-- LD I, nnn (R140). -/
def execLdINnn (nnn : Imm12) (s : State) : Host.Outcome State Fault Refusal := .next (s.setIndex (absolute nnn))

/-- ADD I, Vx: no flag (R141). -/
def execAddIVx (x : Reg) (s : State) : Host.Outcome State Fault Refusal := .next (s.setIndex (indexPlus s x))

/-- LD F, Vx (R142). -/
def execLdFVx (x : Reg) (s : State) : Host.Outcome State Fault Refusal :=
  .next (s.setIndex (glyphAddress (s.getV x)))

/-- RND Vx, kk: one random byte is drawn, whatever kk is (R143). -/
def execRndVxKk (x : Reg) (kk : Byte) (s : State) : Host.Outcome State Fault Refusal :=
  .next (s.setV x (s.randomByte &&& kk)).drawn

/-- Store bytes at I, or MemoryOutOfRange with no byte written (R56, R144, R145). -/
def storeAtIndex (bs : List Byte) (s : State) : Host.Outcome State Fault Refusal :=
  match outOfRange? (indexBase s) bs.length with
  | some a => .next (s.raise .memoryOutOfRange a)
  | none => .next (s.setMem (writeBlock s.mem (indexBase s) bs))

/-- LD B, Vx (R144). -/
def execLdBVx (x : Reg) (s : State) : Host.Outcome State Fault Refusal :=
  storeAtIndex (decimalDigits (s.getV x)) s

/-- LD [I], Vx (R145). -/
def execLdMemVx (x : Reg) (s : State) : Host.Outcome State Fault Refusal := storeAtIndex (s.firstRegs x) s

/-- LD Vx, [I] (R146). -/
def execLdVxMem (x : Reg) (s : State) : Host.Outcome State Fault Refusal :=
  match outOfRange? (indexBase s) (x.val + 1) with
  | some a => .next (s.raise .memoryOutOfRange a)
  | none => .next (s.loadRegs (readBlock s.mem (indexBase s) (x.val + 1)))

end Sys2Proof.Machine
end

