-- ==== Sys2Proof/Machine/InputTimers.lean ====
section
/-! DEFINITION. Input test, timer access and key wait (45_input_timers.md R180 to R185). -/

namespace Sys2Proof.Machine

/-- SKP Vx (R180). -/
def execSkpVx (x : Reg) (s : State) : Host.Outcome State Fault Refusal :=
  match keyNumber? (s.getV x) with
  | some k => .next (s.skipIf s.key[k])
  | none => .next (s.raise .keyIndexOutOfRange 0)

/-- SKNP Vx (R181). -/
def execSknpVx (x : Reg) (s : State) : Host.Outcome State Fault Refusal :=
  match keyNumber? (s.getV x) with
  | some k => .next (s.skipIf (!s.key[k]))
  | none => .next (s.raise .keyIndexOutOfRange 0)

/-- LD Vx, DT (R182). -/
def execLdVxDt (x : Reg) (s : State) : Host.Outcome State Fault Refusal := .next (s.setV x s.dt)

/-- LD DT, Vx (R183). -/
def execLdDtVx (x : Reg) (s : State) : Host.Outcome State Fault Refusal := .next (s.setDt (s.getV x))

/-- LD ST, Vx (R184). -/
def execLdStVx (x : Reg) (s : State) : Host.Outcome State Fault Refusal := .next (s.setSt (s.getV x))

/-- LD Vx, K (R185): the lowest-numbered pressed key, or pc back to this instruction. -/
def execLdVxK (x : Reg) (s : State) : Host.Outcome State Fault Refusal :=
  match s.lowestKey? with
  | some k => .next (s.setV x (BitVec.ofNat 8 k.val))
  | none => .next (s.setPc (s.pc - 2))

end Sys2Proof.Machine
end

