-- ==== Sys2Proof/Machine/NoOp.lean ====
section
/-! DEFINITION. The no-op (40_cycle.md R99): the fetch's writes are its only effect. -/

namespace Sys2Proof.Machine

/-- The executed form of every no-op encoding: nothing (R99). -/
def noOp (s : State) : Host.Outcome State Fault Refusal := .next s

/-- SYS nnn: a no-op in this core (41_control_flow.md R100). -/
def execSys (_nnn : Imm12) (s : State) : Host.Outcome State Fault Refusal := noOp s

/-- Family 8, n none of 0..7, E (R79, R99). -/
def execNop8 (_u : Byte) (_n : BitVec 4) (s : State) : Host.Outcome State Fault Refusal := noOp s

/-- Family E, kk neither 9E nor A1 (R79, R99). -/
def execNopE (_u : BitVec 4) (_kk : Byte) (s : State) : Host.Outcome State Fault Refusal := noOp s

/-- Family F, kk none of the nine (R79, R99). -/
def execNopF (_u : BitVec 4) (_kk : Byte) (s : State) : Host.Outcome State Fault Refusal := noOp s

end Sys2Proof.Machine
end

