-- ==== Sys2Proof/Machine/RegisterAlu.lean ====
section
/-! DEFINITION. Register and arithmetic instructions (42_register_alu.md R120 to R130). Operands are read before
anything is written, and writes follow the order of each rule (40_cycle.md R96): result then flag for ADD, SUB, SUBN;
flag then result for SHR, SHL (the spec's decision D10, log 12). -/

namespace Sys2Proof.Machine

/-- LD Vx, kk (R120). -/
def execLdVxKk (x : Reg) (kk : Byte) (s : State) : Host.Outcome State Fault Refusal := .next (s.setV x kk)

/-- ADD Vx, kk: no flag (R121). -/
def execAddVxKk (x : Reg) (kk : Byte) (s : State) : Host.Outcome State Fault Refusal :=
  .next (s.setV x (s.getV x + kk))

/-- LD Vx, Vy (R122). -/
def execLdVxVy (x y : Reg) (s : State) : Host.Outcome State Fault Refusal := .next (s.setV x (s.getV y))

/-- OR Vx, Vy (R123). -/
def execOrVxVy (x y : Reg) (s : State) : Host.Outcome State Fault Refusal :=
  .next (s.setV x (s.getV x ||| s.getV y))

/-- AND Vx, Vy (R124). -/
def execAndVxVy (x y : Reg) (s : State) : Host.Outcome State Fault Refusal :=
  .next (s.setV x (s.getV x &&& s.getV y))

/-- XOR Vx, Vy (R125). -/
def execXorVxVy (x y : Reg) (s : State) : Host.Outcome State Fault Refusal :=
  .next (s.setV x (s.getV x ^^^ s.getV y))

/-- ADD Vx, Vy: the sum, then the carry (R126). -/
def execAddVxVy (x y : Reg) (s : State) : Host.Outcome State Fault Refusal :=
  .next ((s.setV x (s.getV x + s.getV y)).setFlag (carryFlag (s.getV x) (s.getV y)))

/-- SUB Vx, Vy: Vx - Vy, then not-borrow (R127). -/
def execSubVxVy (x y : Reg) (s : State) : Host.Outcome State Fault Refusal :=
  .next ((s.setV x (s.getV x - s.getV y)).setFlag (notBorrowFlag (s.getV x) (s.getV y)))

/-- SUBN Vx, Vy: Vy - Vx, then not-borrow (R128). -/
def execSubnVxVy (x y : Reg) (s : State) : Host.Outcome State Fault Refusal :=
  .next ((s.setV x (s.getV y - s.getV x)).setFlag (notBorrowFlag (s.getV y) (s.getV x)))

/-- SHR Vx: the bit shifted out, then the result; the y field is ignored (R129). -/
def execShrVx (x _y : Reg) (s : State) : Host.Outcome State Fault Refusal :=
  .next ((s.setFlag (shiftedOutRight (s.getV x))).setV x (s.getV x >>> 1))

/-- SHL Vx: the bit shifted out, then the result; the y field is ignored (R130). -/
def execShlVx (x _y : Reg) (s : State) : Host.Outcome State Fault Refusal :=
  .next ((s.setFlag (shiftedOutLeft (s.getV x))).setV x (s.getV x <<< 1))

end Sys2Proof.Machine
end

