-- ==== Sys2Proof/Syntax.lean ====
section
/-! DEFINITION. The instruction set as syntax: one constructor per row of spec/opcode_table.json (30_encoding.md R77,
R78, R79), in the table's order. Bits that the decoder ignores (marked u in R77) are kept as an operand named u, so that
an instruction and its word determine each other (log 7). -/

namespace Sys2Proof

inductive Instr where
  /-- `0nnn` SYS nnn, every family-0 word whose low byte is neither E0 nor EE (R100) -/
  | sys (nnn : Imm12)
  /-- `0uE0` CLS (R166) -/
  | cls (u : BitVec 4)
  /-- `0uEE` RET (R104) -/
  | ret (u : BitVec 4)
  /-- `1nnn` JP nnn (R101) -/
  | jp (nnn : Imm12)
  /-- `2nnn` CALL nnn (R103) -/
  | call (nnn : Imm12)
  /-- `3xkk` SE Vx, kk (R105) -/
  | seVxKk (x : Reg) (kk : Byte)
  /-- `4xkk` SNE Vx, kk (R106) -/
  | sneVxKk (x : Reg) (kk : Byte)
  /-- `5xyu` SE Vx, Vy (R107) -/
  | seVxVy (x y : Reg) (u : BitVec 4)
  /-- `6xkk` LD Vx, kk (R120) -/
  | ldVxKk (x : Reg) (kk : Byte)
  /-- `7xkk` ADD Vx, kk (R121) -/
  | addVxKk (x : Reg) (kk : Byte)
  /-- `8xy0` LD Vx, Vy (R122) -/
  | ldVxVy (x y : Reg)
  /-- `8xy1` OR Vx, Vy (R123) -/
  | orVxVy (x y : Reg)
  /-- `8xy2` AND Vx, Vy (R124) -/
  | andVxVy (x y : Reg)
  /-- `8xy3` XOR Vx, Vy (R125) -/
  | xorVxVy (x y : Reg)
  /-- `8xy4` ADD Vx, Vy (R126) -/
  | addVxVy (x y : Reg)
  /-- `8xy5` SUB Vx, Vy (R127) -/
  | subVxVy (x y : Reg)
  /-- `8xy6` SHR Vx; the y field is encoded and ignored (R129) -/
  | shrVx (x y : Reg)
  /-- `8xy7` SUBN Vx, Vy (R128) -/
  | subnVxVy (x y : Reg)
  /-- `8xyE` SHL Vx; the y field is encoded and ignored (R130) -/
  | shlVx (x y : Reg)
  /-- `9xyu` SNE Vx, Vy (R108) -/
  | sneVxVy (x y : Reg) (u : BitVec 4)
  /-- `Annn` LD I, nnn (R140) -/
  | ldINnn (nnn : Imm12)
  /-- `Bnnn` JP V0, nnn (R102) -/
  | jpV0Nnn (nnn : Imm12)
  /-- `Cxkk` RND Vx, kk (R143) -/
  | rndVxKk (x : Reg) (kk : Byte)
  /-- `Dxyn` DRW Vx, Vy, n (R160) -/
  | drwVxVyN (x y : Reg) (n : BitVec 4)
  /-- `Ex9E` SKP Vx (R180) -/
  | skpVx (x : Reg)
  /-- `ExA1` SKNP Vx (R181) -/
  | sknpVx (x : Reg)
  /-- `Fx07` LD Vx, DT (R182) -/
  | ldVxDt (x : Reg)
  /-- `Fx0A` LD Vx, K (R185) -/
  | ldVxK (x : Reg)
  /-- `Fx15` LD DT, Vx (R183) -/
  | ldDtVx (x : Reg)
  /-- `Fx18` LD ST, Vx (R184) -/
  | ldStVx (x : Reg)
  /-- `Fx1E` ADD I, Vx (R141) -/
  | addIVx (x : Reg)
  /-- `Fx29` LD F, Vx (R142) -/
  | ldFVx (x : Reg)
  /-- `Fx33` LD B, Vx (R144) -/
  | ldBVx (x : Reg)
  /-- `Fx55` LD [I], Vx (R145) -/
  | ldMemVx (x : Reg)
  /-- `Fx65` LD Vx, [I] (R146) -/
  | ldVxMem (x : Reg)
  /-- `8uun` with n none of 0..7, E: no-op (R79, R99) -/
  | nop8 (u : Byte) (n : BitVec 4)
  /-- `Eukk` with kk neither 9E nor A1: no-op (R79, R99) -/
  | nopE (u : BitVec 4) (kk : Byte)
  /-- `Fukk` with kk none of 07, 0A, 15, 18, 1E, 29, 33, 55, 65: no-op (R79, R99) -/
  | nopF (u : BitVec 4) (kk : Byte)
  deriving DecidableEq, Repr

end Sys2Proof
end

