-- ==== Sys2Proof/WellFormed.lean ====
section
/-! DEFINITION. The checks on an instruction term. Only the four fallback rows of the opcode map need one: their words
are the words of their family that no other row takes (30_encoding.md R77, R79). Every other operand is bounded by its
type. -/

namespace Sys2Proof

/-- The low bytes that family 0 dispatches on (R75): CLS and RET. -/
def selectors0 : List Byte := [0xE0, 0xEE]

/-- The low nibbles that family 8 dispatches on (R75, R77). -/
def selectors8 : List (BitVec 4) := [0x0, 0x1, 0x2, 0x3, 0x4, 0x5, 0x6, 0x7, 0xE]

/-- The low bytes that family E dispatches on (R75): SKP and SKNP. -/
def selectorsE : List Byte := [0x9E, 0xA1]

/-- The low bytes that family F dispatches on (R75, R77). -/
def selectorsF : List Byte := [0x07, 0x0A, 0x15, 0x18, 0x1E, 0x29, 0x33, 0x55, 0x65]

/-- A term is well formed when it is what its own word stands for: a fallback row never holds a selector that its family
dispatches on (R79, R83). -/
def Instr.wf : Instr → Bool
  | .sys nnn => !selectors0.contains (nnn.extractLsb' 0 8)
  | .nop8 _ n => !selectors8.contains n
  | .nopE _ kk => !selectorsE.contains kk
  | .nopF _ kk => !selectorsF.contains kk
  | .cls _ | .ret _ | .jp _ | .call _ | .seVxKk _ _ | .sneVxKk _ _ | .seVxVy _ _ _ | .ldVxKk _ _ | .addVxKk _ _
  | .ldVxVy _ _ | .orVxVy _ _ | .andVxVy _ _ | .xorVxVy _ _ | .addVxVy _ _ | .subVxVy _ _ | .shrVx _ _
  | .subnVxVy _ _ | .shlVx _ _ | .sneVxVy _ _ _ | .ldINnn _ | .jpV0Nnn _ | .rndVxKk _ _ | .drwVxVyN _ _ _
  | .skpVx _ | .sknpVx _ | .ldVxDt _ | .ldVxK _ | .ldDtVx _ | .ldStVx _ | .addIVx _ | .ldFVx _ | .ldBVx _
  | .ldMemVx _ | .ldVxMem _ => true

end Sys2Proof
end

