-- ==== Sys2Proof/Decode.lean ====
section
/-! DEFINITION. The decoder (30_encoding.md R70 to R79), total on any bytes, and after it the encoder written from the
same opcode map (R77) and the map itself as rows of mask and match (opcode_table.json, R83). -/

namespace Sys2Proof

/-! ### Fields of an opcode (R71) -/

/-- `op`, w[15:12], the primary selector. -/
def opField (w : Word) : BitVec 4 := w.extractLsb' 12 4

/-- The nibble w[11:8] as bits. -/
def nibble2 (w : Word) : BitVec 4 := w.extractLsb' 8 4

/-- `x`, w[11:8], a register index. -/
def xField (w : Word) : Reg := (nibble2 w).toFin

/-- `y`, w[7:4], a register index. -/
def yField (w : Word) : Reg := (w.extractLsb' 4 4).toFin

/-- `n`, w[3:0]. -/
def nField (w : Word) : BitVec 4 := w.extractLsb' 0 4

/-- `kk`, w[7:0]. -/
def kkField (w : Word) : Byte := w.extractLsb' 0 8

/-- `nnn`, w[11:0]. -/
def nnnField (w : Word) : Imm12 := w.extractLsb' 0 12

/-- w[11:4], the bits that family 8's fallback ignores. -/
def midByte (w : Word) : Byte := w.extractLsb' 4 8

/-! ### Secondary dispatch (R75): families 0, E and F on kk, family 8 on n -/

def decodeFamily0 (w : Word) : Instr :=
  if kkField w = 0xE0 then .cls (nibble2 w)
  else if kkField w = 0xEE then .ret (nibble2 w)
  else .sys (nnnField w)

def decodeFamily8 (w : Word) : Instr :=
  if nField w = 0x0 then .ldVxVy (xField w) (yField w)
  else if nField w = 0x1 then .orVxVy (xField w) (yField w)
  else if nField w = 0x2 then .andVxVy (xField w) (yField w)
  else if nField w = 0x3 then .xorVxVy (xField w) (yField w)
  else if nField w = 0x4 then .addVxVy (xField w) (yField w)
  else if nField w = 0x5 then .subVxVy (xField w) (yField w)
  else if nField w = 0x6 then .shrVx (xField w) (yField w)
  else if nField w = 0x7 then .subnVxVy (xField w) (yField w)
  else if nField w = 0xE then .shlVx (xField w) (yField w)
  else .nop8 (midByte w) (nField w)

def decodeFamilyE (w : Word) : Instr :=
  if kkField w = 0x9E then .skpVx (xField w)
  else if kkField w = 0xA1 then .sknpVx (xField w)
  else .nopE (nibble2 w) (kkField w)

def decodeFamilyF (w : Word) : Instr :=
  if kkField w = 0x07 then .ldVxDt (xField w)
  else if kkField w = 0x0A then .ldVxK (xField w)
  else if kkField w = 0x15 then .ldDtVx (xField w)
  else if kkField w = 0x18 then .ldStVx (xField w)
  else if kkField w = 0x1E then .addIVx (xField w)
  else if kkField w = 0x29 then .ldFVx (xField w)
  else if kkField w = 0x33 then .ldBVx (xField w)
  else if kkField w = 0x55 then .ldMemVx (xField w)
  else if kkField w = 0x65 then .ldVxMem (xField w)
  else .nopF (nibble2 w) (kkField w)

/-- Primary decode (R74): one of 16 handlers, selected by the top nibble; the last `else` is op = 0xF, the one value
left. Every word decodes (R79, R83); families 5 and 9 do not look at w[3:0] (R76). -/
def decodeWord (w : Word) : Instr :=
  if opField w = 0x0 then decodeFamily0 w
  else if opField w = 0x1 then .jp (nnnField w)
  else if opField w = 0x2 then .call (nnnField w)
  else if opField w = 0x3 then .seVxKk (xField w) (kkField w)
  else if opField w = 0x4 then .sneVxKk (xField w) (kkField w)
  else if opField w = 0x5 then .seVxVy (xField w) (yField w) (nField w)
  else if opField w = 0x6 then .ldVxKk (xField w) (kkField w)
  else if opField w = 0x7 then .addVxKk (xField w) (kkField w)
  else if opField w = 0x8 then decodeFamily8 w
  else if opField w = 0x9 then .sneVxVy (xField w) (yField w) (nField w)
  else if opField w = 0xA then .ldINnn (nnnField w)
  else if opField w = 0xB then .jpV0Nnn (nnnField w)
  else if opField w = 0xC then .rndVxKk (xField w) (kkField w)
  else if opField w = 0xD then .drwVxVyN (xField w) (yField w) (nField w)
  else if opField w = 0xE then decodeFamilyE w
  else decodeFamilyF w

/-! ### From bytes -/

/-- Why bytes are no instruction: only that there are too few of them (R70, R79). -/
inductive DecodeError where
  /-- fewer than two bytes -/
  | truncated
  deriving DecidableEq, Repr

/-- Two consecutive bytes, big-endian (R57). -/
def wordOfBytes (hi lo : Byte) : Word := hi ++ lo

/-- A word as memory holds it, the byte at the lower address first (R57). -/
def bytesOfWord (w : Word) : List Byte := [w.extractLsb' 8 8, w.extractLsb' 0 8]

/-- Decode the instruction at the front of a byte sequence: the instruction and the rest (R57, R70). -/
def decode : List Byte → Except DecodeError (Instr × List Byte)
  | hi :: lo :: rest => .ok (decodeWord (wordOfBytes hi lo), rest)
  | [_] => .error .truncated
  | [] => .error .truncated

/-- What the decoder reads from an instruction whose bits are w, of which the opcode table gives nbits; every bit above
nbits is 0. No instruction is longer than 16 bits (R70). -/
def decodeTableWord (nbits w : Nat) : Option Instr :=
  if 16 < nbits then none
  else
    match decode (bytesOfWord (BitVec.ofNat 16 (w % 2 ^ nbits))) with
    | .ok (i, _) => some i
    | .error _ => none

/-! ### The encoder (R72, R77) -/

/-- Format NNN: `oooo nnnnnnnnnnnn`. -/
def formatNNN (op : BitVec 4) (nnn : Imm12) : Word := op ++ nnn

/-- Formats XKK, XF and FIXED: `oooo xxxx kkkkkkkk`. -/
def formatXKK (op x : BitVec 4) (kk : Byte) : Word := op ++ (x ++ kk)

/-- Formats XY and XYN: `oooo xxxx yyyy nnnn`. -/
def formatXYN (op x y n : BitVec 4) : Word := op ++ (x ++ (y ++ n))

/-- A register index as the 4-bit field that names it (R20). -/
def regBits (x : Reg) : BitVec 4 := BitVec.ofFin x

/-- The word of an instruction, from the patterns of R77. -/
def encode : Instr → Word
  | .sys nnn => formatNNN 0x0 nnn
  | .cls u => formatXKK 0x0 u 0xE0
  | .ret u => formatXKK 0x0 u 0xEE
  | .jp nnn => formatNNN 0x1 nnn
  | .call nnn => formatNNN 0x2 nnn
  | .seVxKk x kk => formatXKK 0x3 (regBits x) kk
  | .sneVxKk x kk => formatXKK 0x4 (regBits x) kk
  | .seVxVy x y u => formatXYN 0x5 (regBits x) (regBits y) u
  | .ldVxKk x kk => formatXKK 0x6 (regBits x) kk
  | .addVxKk x kk => formatXKK 0x7 (regBits x) kk
  | .ldVxVy x y => formatXYN 0x8 (regBits x) (regBits y) 0x0
  | .orVxVy x y => formatXYN 0x8 (regBits x) (regBits y) 0x1
  | .andVxVy x y => formatXYN 0x8 (regBits x) (regBits y) 0x2
  | .xorVxVy x y => formatXYN 0x8 (regBits x) (regBits y) 0x3
  | .addVxVy x y => formatXYN 0x8 (regBits x) (regBits y) 0x4
  | .subVxVy x y => formatXYN 0x8 (regBits x) (regBits y) 0x5
  | .shrVx x y => formatXYN 0x8 (regBits x) (regBits y) 0x6
  | .subnVxVy x y => formatXYN 0x8 (regBits x) (regBits y) 0x7
  | .shlVx x y => formatXYN 0x8 (regBits x) (regBits y) 0xE
  | .sneVxVy x y u => formatXYN 0x9 (regBits x) (regBits y) u
  | .ldINnn nnn => formatNNN 0xA nnn
  | .jpV0Nnn nnn => formatNNN 0xB nnn
  | .rndVxKk x kk => formatXKK 0xC (regBits x) kk
  | .drwVxVyN x y n => formatXYN 0xD (regBits x) (regBits y) n
  | .skpVx x => formatXKK 0xE (regBits x) 0x9E
  | .sknpVx x => formatXKK 0xE (regBits x) 0xA1
  | .ldVxDt x => formatXKK 0xF (regBits x) 0x07
  | .ldVxK x => formatXKK 0xF (regBits x) 0x0A
  | .ldDtVx x => formatXKK 0xF (regBits x) 0x15
  | .ldStVx x => formatXKK 0xF (regBits x) 0x18
  | .addIVx x => formatXKK 0xF (regBits x) 0x1E
  | .ldFVx x => formatXKK 0xF (regBits x) 0x29
  | .ldBVx x => formatXKK 0xF (regBits x) 0x33
  | .ldMemVx x => formatXKK 0xF (regBits x) 0x55
  | .ldVxMem x => formatXKK 0xF (regBits x) 0x65
  | .nop8 u n => 0x8#4 ++ (u ++ n)
  | .nopE u kk => formatXKK 0xE u kk
  | .nopF u kk => formatXKK 0xF u kk

/-! ### The opcode map as rows (R77, opcode_table.json) -/

/-- One row: a word w matches when w AND mask = pattern; a fallback row is chosen only when no other row matches
(R77, R83). -/
structure OpcodeRow where
  mask : Word
  pattern : Word
  fallback : Bool
  deriving DecidableEq, Repr

/-- The row of the table that an instruction belongs to. -/
def Instr.row : Instr → OpcodeRow
  | .sys _ => ⟨0xF000, 0x0000, true⟩
  | .cls _ => ⟨0xF0FF, 0x00E0, false⟩
  | .ret _ => ⟨0xF0FF, 0x00EE, false⟩
  | .jp _ => ⟨0xF000, 0x1000, false⟩
  | .call _ => ⟨0xF000, 0x2000, false⟩
  | .seVxKk _ _ => ⟨0xF000, 0x3000, false⟩
  | .sneVxKk _ _ => ⟨0xF000, 0x4000, false⟩
  | .seVxVy _ _ _ => ⟨0xF000, 0x5000, false⟩
  | .ldVxKk _ _ => ⟨0xF000, 0x6000, false⟩
  | .addVxKk _ _ => ⟨0xF000, 0x7000, false⟩
  | .ldVxVy _ _ => ⟨0xF00F, 0x8000, false⟩
  | .orVxVy _ _ => ⟨0xF00F, 0x8001, false⟩
  | .andVxVy _ _ => ⟨0xF00F, 0x8002, false⟩
  | .xorVxVy _ _ => ⟨0xF00F, 0x8003, false⟩
  | .addVxVy _ _ => ⟨0xF00F, 0x8004, false⟩
  | .subVxVy _ _ => ⟨0xF00F, 0x8005, false⟩
  | .shrVx _ _ => ⟨0xF00F, 0x8006, false⟩
  | .subnVxVy _ _ => ⟨0xF00F, 0x8007, false⟩
  | .shlVx _ _ => ⟨0xF00F, 0x800E, false⟩
  | .sneVxVy _ _ _ => ⟨0xF000, 0x9000, false⟩
  | .ldINnn _ => ⟨0xF000, 0xA000, false⟩
  | .jpV0Nnn _ => ⟨0xF000, 0xB000, false⟩
  | .rndVxKk _ _ => ⟨0xF000, 0xC000, false⟩
  | .drwVxVyN _ _ _ => ⟨0xF000, 0xD000, false⟩
  | .skpVx _ => ⟨0xF0FF, 0xE09E, false⟩
  | .sknpVx _ => ⟨0xF0FF, 0xE0A1, false⟩
  | .ldVxDt _ => ⟨0xF0FF, 0xF007, false⟩
  | .ldVxK _ => ⟨0xF0FF, 0xF00A, false⟩
  | .ldDtVx _ => ⟨0xF0FF, 0xF015, false⟩
  | .ldStVx _ => ⟨0xF0FF, 0xF018, false⟩
  | .addIVx _ => ⟨0xF0FF, 0xF01E, false⟩
  | .ldFVx _ => ⟨0xF0FF, 0xF029, false⟩
  | .ldBVx _ => ⟨0xF0FF, 0xF033, false⟩
  | .ldMemVx _ => ⟨0xF0FF, 0xF055, false⟩
  | .ldVxMem _ => ⟨0xF0FF, 0xF065, false⟩
  | .nop8 _ _ => ⟨0xF000, 0x8000, true⟩
  | .nopE _ _ => ⟨0xF000, 0xE000, true⟩
  | .nopF _ _ => ⟨0xF000, 0xF000, true⟩

/-- The rows of opcode_table.json whose "fallback" is not true, in the table's order. -/
def plainRows : List OpcodeRow :=
  [⟨0xF0FF, 0x00E0, false⟩, ⟨0xF0FF, 0x00EE, false⟩, ⟨0xF000, 0x1000, false⟩, ⟨0xF000, 0x2000, false⟩,
   ⟨0xF000, 0x3000, false⟩, ⟨0xF000, 0x4000, false⟩, ⟨0xF000, 0x5000, false⟩, ⟨0xF000, 0x6000, false⟩,
   ⟨0xF000, 0x7000, false⟩] ++
  [⟨0xF00F, 0x8000, false⟩, ⟨0xF00F, 0x8001, false⟩, ⟨0xF00F, 0x8002, false⟩, ⟨0xF00F, 0x8003, false⟩,
   ⟨0xF00F, 0x8004, false⟩, ⟨0xF00F, 0x8005, false⟩, ⟨0xF00F, 0x8006, false⟩, ⟨0xF00F, 0x8007, false⟩,
   ⟨0xF00F, 0x800E, false⟩] ++
  [⟨0xF000, 0x9000, false⟩, ⟨0xF000, 0xA000, false⟩, ⟨0xF000, 0xB000, false⟩, ⟨0xF000, 0xC000, false⟩,
   ⟨0xF000, 0xD000, false⟩, ⟨0xF0FF, 0xE09E, false⟩, ⟨0xF0FF, 0xE0A1, false⟩] ++
  [⟨0xF0FF, 0xF007, false⟩, ⟨0xF0FF, 0xF00A, false⟩, ⟨0xF0FF, 0xF015, false⟩, ⟨0xF0FF, 0xF018, false⟩,
   ⟨0xF0FF, 0xF01E, false⟩, ⟨0xF0FF, 0xF029, false⟩, ⟨0xF0FF, 0xF033, false⟩, ⟨0xF0FF, 0xF055, false⟩,
   ⟨0xF0FF, 0xF065, false⟩]

/-- The four fallback rows of opcode_table.json: SYS nnn and the three no-op rows. -/
def fallbackRows : List OpcodeRow :=
  [⟨0xF000, 0x0000, true⟩, ⟨0xF000, 0x8000, true⟩, ⟨0xF000, 0xE000, true⟩, ⟨0xF000, 0xF000, true⟩]

/-- w AND mask = pattern. -/
def OpcodeRow.covers (r : OpcodeRow) (w : Word) : Bool := w &&& r.mask == r.pattern

/-- The rule of R77 and R83: a row that is no fallback is chosen when it matches; a fallback row when it matches and no
row that is no fallback does. -/
def OpcodeRow.chosen (r : OpcodeRow) (w : Word) : Bool :=
  r.covers w && (!r.fallback || !plainRows.any (fun q => q.covers w))

end Sys2Proof
end

