-- ==== Sys2Proof/Machine/Fetch.lean ====
section
/-! DEFINITION. The fetch half of a cycle (40_cycle.md R91 to R93). -/

namespace Sys2Proof.Machine

/-- The fetch checks (R91): an odd pc first, then pc above 0xFFE; the fault's reason and fault_addr. -/
def fetchFault? (a : Word) : Option (FaultReason × Word) :=
  if a.toNat % 2 = 1 then some (.misalignedFetch, 0)
  else if 0xFFE < a.toNat then some (.memoryOutOfRange, a)
  else none

/-- The two bytes at an address, big-endian (R57, R92). -/
def fetchWord (m : Memory) (a : Word) : Word := wordOfBytes (readByte m a.toNat) (readByte m (a.toNat + 1))

/-- A word stored where `fetchWord` reads it (R57). -/
def storeWord (m : Memory) (a : Word) (w : Word) : Memory := writeBlock m a.toNat (bytesOfWord w)

/-- The state that the execute step starts from: opcode latched, pc advanced (R92, R93). -/
def State.fetched (s : State) : State := s.latch (fetchWord s.mem s.pc)

end Sys2Proof.Machine
end

