-- ==== Sys2Proof/Machine/Step.lean ====
section
/-! DEFINITION. One step is one `cycle()` (40_cycle.md R90). -/

namespace Sys2Proof.Machine

/-- `cycle()` (R90): nothing while a fault is recorded; else the fetch checks, the fetch, the advance, the decode and
the execute, in that order. A fault at the fetch checks leaves everything else unchanged, with fault_pc = pc (R91). -/
def step (s : State) : Host.Outcome State Fault Refusal :=
  if s.fault.isSome then .next s
  else
    match fetchFault? s.pc with
    | some (reason, info) => .next (s.takeFault reason s.pc info)
    | none => exec (decodeWord s.fetched.opcode) s.fetched

/-- Where `withFetchWord` places its instruction: at pc if an instruction can be fetched there, else at 0x200. -/
def placeAt (s : State) : Word := if (fetchFault? s.pc).isNone then s.pc else 0x200

/-- s with the instruction of nbits bits w, big-endian, stored where step fetches its next instruction, and able to
fetch it: a recorded fault would halt the core (R90), so there is none, and a pc that cannot be fetched from (R91) is
moved to the program base. After reset only the two bytes at 0x200 change (log 10). -/
def State.withFetchWord (s : State) (nbits w : Nat) : State :=
  { s with
    fault := none
    pc := placeAt s
    mem := storeWord s.mem (placeAt s) (BitVec.ofNat 16 (w % 2 ^ nbits)) }

end Sys2Proof.Machine
end

