-- ==== Sys2Proof/Machine/HostOps.lean ====
section
/-! DEFINITION. The operations through which the host reaches the core (10_state.md R37 to R46). Each is atomic; the
host issues them one at a time, in any order and number (70_reset_and_hazards.md R237, R238, log 9). -/

namespace Sys2Proof.Machine

/-- The result of `load` (R38). -/
inductive LoadResult where
  | ok
  | imageTooLarge
  deriving DecidableEq, Repr

/-- `load(bytes)` (20_memory.md R62, R63): the length is checked before anything is copied. -/
def loadImage (bytes : List Byte) (s : State) : LoadResult × State :=
  if Config.maxImage < bytes.length then (.imageTooLarge, s)
  else (.ok, s.setMem (writeBlock s.mem Config.progBase bytes))

/-- `if t > 0 then t - 1` (60_exceptions.md R208). -/
def tickDown (t : Byte) : Byte := if 0 < t.toNat then t - 1 else t

/-- `tickTimers()` (R44, R208): works whether or not a fault is recorded. -/
def tickTimers (s : State) : State := { s with dt := tickDown s.dt, st := tickDown s.st }

/-- `setKey(k, pressed)` (R40). -/
def setKey (k : Fin 16) (pressed : Bool) (s : State) : State := s.putKey k pressed

/-- `framebuffer()` (R41): the pixels as the last completed operation left them. -/
def framebuffer (s : State) : Framebuffer := s.fb

/-- `soundActive()` (R42): ST > 0. -/
def soundActive (s : State) : Bool := decide (0 < s.st.toNat)

/-- `faultStatus()` (R43). -/
def faultStatus (s : State) : Option FaultRecord := s.fault

/-- A call of the host. -/
inductive HostOp where
  | load (bytes : List Byte)
  | cycle
  | tickTimers
  | setKey (k : Fin 16) (pressed : Bool)
  | framebuffer
  | soundActive
  | faultStatus
  deriving DecidableEq, Repr

/-- What a call gives back. -/
inductive HostResult where
  /-- `cycle`, `tickTimers` and `setKey` return nothing -/
  | nothing
  | loaded (r : LoadResult)
  | pixels (f : Framebuffer)
  | sound (active : Bool)
  | status (r : Option FaultRecord)
  deriving DecidableEq, Repr

/-- One operation of the host, with its effect and its result. -/
def hostOp (op : HostOp) (s : State) : Host.Outcome (State × HostResult) Fault Refusal :=
  match op with
  | .load bytes => .next ((loadImage bytes s).2, .loaded (loadImage bytes s).1)
  | .cycle =>
    match step s with
    | .next t => .next (t, .nothing)
    | .fault r => .fault r
    | .refused r => .refused r
  | .tickTimers => .next (tickTimers s, .nothing)
  | .setKey k pressed => .next (setKey k pressed s, .nothing)
  | .framebuffer => .next (s, .pixels (framebuffer s))
  | .soundActive => .next (s, .sound (soundActive s))
  | .faultStatus => .next (s, .status (faultStatus s))

/-- The operations of a host, one after another, with their results in order. -/
def runHost : List HostOp → State → Host.Outcome (State × List HostResult) Fault Refusal
  | [], s => .next (s, [])
  | op :: ops, s =>
    match hostOp op s with
    | .next (t, r) =>
      match runHost ops t with
      | .next (u, rs) => .next (u, r :: rs)
      | .fault e => .fault e
      | .refused e => .refused e
    | .fault e => .fault e
    | .refused e => .refused e

end Sys2Proof.Machine
end

