-- ==== Sys2Proof/Safety.lean ====
section
/-! DEFINITION. The words the statements use: the invariant, the spec's draw loop, the no-op space, who writes what. -/

namespace Sys2Proof.Machine

/-! ### The invariant -/

/-- A return address that a CALL can have pushed: the address after a fetched instruction, so even and at most 0x1000
(41_control_flow.md R103, 40_cycle.md R91, R93). -/
def ReturnAddress (w : Word) : Prop := w.toNat ≤ 0x1000 ∧ w.toNat % 2 = 0

/-- What the fault status can hold (10_state.md R33): for `memoryOutOfRange` an address above 0xFFF, 0 for the others;
the address of an instruction that can be fetched for the reasons raised in execute, an odd one for `misalignedFetch`. -/
def FaultRecord.Sound (r : FaultRecord) : Prop :=
  (r.reason = .memoryOutOfRange → 0xFFF < r.addr.toNat) ∧
  (r.reason ≠ .memoryOutOfRange → r.addr = 0) ∧
  (r.reason = .misalignedFetch ↔ r.pc.toNat % 2 = 1) ∧
  (r.reason ≠ .misalignedFetch → r.reason ≠ .memoryOutOfRange → r.pc.toNat ≤ 0xFFE)

/-- The invariant of the machine: memory is in canonical form, pc has not passed 0x10FE (10_state.md R23), every stack
entry is a possible return address, and a recorded fault is one the spec describes (R33, R201). The bounds on sp, V,
DT, ST and pixels (R36) are in the types of `State`. -/
structure Inv (s : State) : Prop where
  mem_wf : Memory.wf s.mem
  pc_le : s.pc.toNat ≤ 0x10FE
  stack_ok : ∀ j : Fin 16, ReturnAddress s.stack[j]
  fault_ok : ∀ r, s.fault = some r → r.Sound

/-! ### The draw of 44_display.md R160, as its nested loop -/

/-- `fb[py][px] <- b`. -/
def setPixel (f : Framebuffer) (px py : Nat) (b : Bool) : Framebuffer :=
  Vector.ofFn fun r : Fin 32 =>
    BitVec.ofFnLE fun k : Fin 64 => if r.val = py ∧ 63 - k.val = px then b else pixel f (63 - k.val) r.val

/-- The body of the loop for one (row, column) of the sprite: a set bit whose pixel is on the screen toggles it and
reports a collision when it was lit. -/
def plot (x0 y0 r : Nat) (row : Byte) (acc : Framebuffer × Bool) (col : Nat) : Framebuffer × Bool :=
  if row.getLsbD (7 - col) ∧ x0 + col < 64 ∧ y0 + r < 32 then
    (setPixel acc.1 (x0 + col) (y0 + r) (pixel acc.1 (x0 + col) (y0 + r) ^^ true),
      if pixel acc.1 (x0 + col) (y0 + r) then true else acc.2)
  else acc

/-- `for col in 0..7`. -/
def plotRow (x0 y0 r : Nat) (row : Byte) (acc : Framebuffer × Bool) : Framebuffer × Bool :=
  (List.range 8).foldl (plot x0 y0 r row) acc

/-- `for r in 0..n-1`, from row r on. -/
def drawLoop (x0 y0 : Nat) : Nat → List Byte → Framebuffer × Bool → Framebuffer × Bool
  | _, [], acc => acc
  | r, row :: rows, acc => drawLoop x0 y0 (r + 1) rows (plotRow x0 y0 r row acc)

/-- A bit of the sprite at a screen position, before clipping: row r is the r-th byte, column col its bit 7 - col
(R162). -/
def spriteBit (x0 y0 : Nat) (rows : List Byte) (px py : Nat) : Bool :=
  decide (x0 ≤ px ∧ px < x0 + 8 ∧ y0 ≤ py ∧ py < y0 + rows.length) &&
    (rows.getD (py - y0) 0).getLsbD (7 - (px - x0))

/-! ### The no-op space of 30_encoding.md R79, from the fields of the word -/

/-- The word executes as a no-op. -/
def noOpWord (w : Word) : Prop :=
  (w.toNat / 0x1000 = 0x0 ∧ w.toNat % 0x100 ∉ [0xE0, 0xEE]) ∨
  (w.toNat / 0x1000 = 0x8 ∧ w.toNat % 0x10 ∈ [0x8, 0x9, 0xA, 0xB, 0xC, 0xD, 0xF]) ∨
  (w.toNat / 0x1000 = 0xE ∧ w.toNat % 0x100 ∉ [0x9E, 0xA1]) ∨
  (w.toNat / 0x1000 = 0xF ∧
    w.toNat % 0x100 ∉ [0x07, 0x0A, 0x15, 0x18, 0x1E, 0x29, 0x33, 0x55, 0x65])

/-! ### Who writes what (10_state.md R22, R25 to R31; 20_memory.md R61) -/

/-- The instruction may write register r (R22: "No instruction writes a register it does not name in this list"). -/
def writesReg (i : Instr) (r : Reg) : Prop :=
  match i with
  | .ldVxKk x _ | .addVxKk x _ | .rndVxKk x _ | .ldVxDt x | .ldVxK x => r = x
  | .ldVxVy x _ | .orVxVy x _ | .andVxVy x _ | .xorVxVy x _ => r = x
  | .addVxVy x _ | .subVxVy x _ | .shrVx x _ | .subnVxVy x _ | .shlVx x _ => r = x ∨ r = 0xF
  | .drwVxVyN _ _ _ => r = 0xF
  | .ldVxMem x => r ≤ x
  | .sys _ | .cls _ | .ret _ | .jp _ | .call _ | .seVxKk _ _ | .sneVxKk _ _ | .seVxVy _ _ _ | .sneVxVy _ _ _
  | .ldINnn _ | .jpV0Nnn _ | .skpVx _ | .sknpVx _ | .ldDtVx _ | .ldStVx _ | .addIVx _ | .ldFVx _ | .ldBVx _
  | .ldMemVx _ | .nop8 _ _ | .nopE _ _ | .nopF _ _ => False

/-- The instruction may write memory: Fx33 and Fx55 (R61). -/
def writesMem : Instr → Bool
  | .ldBVx _ | .ldMemVx _ => true
  | _ => false

/-- The instruction may write the framebuffer: 00E0 and Dxyn (R31). -/
def writesFb : Instr → Bool
  | .cls _ | .drwVxVyN _ _ _ => true
  | _ => false

/-- The instruction may write I: Annn, Fx1E, Fx29 (R25). -/
def writesIndex : Instr → Bool
  | .ldINnn _ | .addIVx _ | .ldFVx _ => true
  | _ => false

/-- The instruction uses the call stack: 2nnn and 00EE (R26). -/
def usesStack : Instr → Bool
  | .call _ | .ret _ => true
  | _ => false

/-- The instruction writes pc beyond the fetch's advance by an absolute target (R23: 1nnn, 2nnn, 00EE, Bnnn). -/
def jumps : Instr → Bool
  | .jp _ | .call _ | .ret _ | .jpV0Nnn _ => true
  | _ => false

/-- The instruction is a skip (R105 to R108, R180, R181). -/
def skips : Instr → Bool
  | .seVxKk _ _ | .sneVxKk _ _ | .seVxVy _ _ _ | .sneVxVy _ _ _ | .skpVx _ | .sknpVx _ => true
  | _ => false

/-- The fault that an instruction raises in execute from a state, by the table of 60_exceptions.md R201; none where its
condition does not hold or it has none. -/
def raises (i : Instr) (s : State) : Option FaultReason :=
  match i with
  | .call _ => if s.sp.val = 16 then some .stackOverflow else none
  | .ret _ => if s.sp.val = 0 then some .stackUnderflow else none
  | .drwVxVyN _ _ n => if 0 < n.toNat ∧ 0xFFF < s.index.toNat + n.toNat - 1 then some .memoryOutOfRange else none
  | .ldBVx _ => if 0xFFF < s.index.toNat + 2 then some .memoryOutOfRange else none
  | .ldMemVx x | .ldVxMem x => if 0xFFF < s.index.toNat + x.val then some .memoryOutOfRange else none
  | .skpVx x | .sknpVx x => if 15 < s.v[x].toNat then some .keyIndexOutOfRange else none
  | .sys _ | .cls _ | .jp _ | .seVxKk _ _ | .sneVxKk _ _ | .seVxVy _ _ _ | .ldVxKk _ _ | .addVxKk _ _
  | .ldVxVy _ _ | .orVxVy _ _ | .andVxVy _ _ | .xorVxVy _ _ | .addVxVy _ _ | .subVxVy _ _ | .shrVx _ _
  | .subnVxVy _ _ | .shlVx _ _ | .sneVxVy _ _ _ | .ldINnn _ | .jpV0Nnn _ | .rndVxKk _ _ | .ldVxDt _ | .ldVxK _
  | .ldDtVx _ | .ldStVx _ | .addIVx _ | .ldFVx _ | .nop8 _ _ | .nopE _ _ | .nopF _ _ => none

/-! ### Frames: everything of the state but what is named is the same in t as in s -/

/-- Only general registers changed, and of those only the ones in the list; every other field, every byte of memory
among them, is the same. -/
def OnlyRegs (s t : State) (changed : List Reg) : Prop :=
  t = { s with v := t.v } ∧ ∀ r, r ∉ changed → t.v[r] = s.v[r]

/-- Only pc changed. -/
def OnlyPc (s t : State) : Prop := t = { s with pc := t.pc }

/-- Only I changed. -/
def OnlyIndex (s t : State) : Prop := t = { s with index := t.index }

/-- An instruction can be fetched: no fault is recorded, pc is even and at most 0xFFE (40_cycle.md R90, R91). -/
def CanFetch (s : State) : Prop := s.fault = none ∧ s.pc.toNat % 2 = 0 ∧ s.pc.toNat ≤ 0xFFE

end Sys2Proof.Machine
end

