-- ==== Sys2Proof/Certificates/Slice0/Obligations.lean ====
section
/-! DEFINITION. The statements for the provers. Each docstring names the rules of spec/ it states, and for every clause
that rests on a choice the spec marks as its own ([decision], [derived], [from general knowledge]) or on an entry of
the assumption log, that choice. In every statement about `exec` the state s is the one after fetch and advance
(40_cycle.md R93): pc holds the instruction's address + 2. -/

open Sys2Proof Sys2Proof.Machine

/-! ### Reset -/

/-- The state after construction (70_reset_and_hazards.md section 1). pc = 0x200 and the preloaded font are the
source's; that every other value is zero, false or unlit is the spec's own decision D9 (log 5), and the FONT bytes are
D19 (log 4). -/
def Obligations.ResetStateValues : Prop :=
  State.reset.pc = 0x200 ∧ State.reset.index = 0 ∧ State.reset.sp = 0 ∧ State.reset.dt = 0 ∧ State.reset.st = 0 ∧
  State.reset.opcode = 0 ∧ State.reset.fault = none ∧
  (∀ r : Reg, State.reset.v[r] = 0) ∧ (∀ j : Fin 16, State.reset.stack[j] = 0) ∧
  (∀ k : Fin 16, State.reset.key[k] = false) ∧ (∀ px py, pixel State.reset.fb px py = false) ∧
  (∀ a, a < 0x1000 → readByte State.reset.mem a =
    if 0x050 ≤ a ∧ a ≤ 0x09F then fontBytes.getD (a - 0x050) 0 else 0)

/-- Every glyph's four low bits are clear and its bytes are those of R52's table: digit 0 is F0 90 90 90 F0, digit 7 is
F0 10 20 40 40, digit F is F0 80 F0 80 80 (20_memory.md section 2; the bytes are D19, general knowledge, log 4). -/
def Obligations.ResetFontGlyphs : Prop :=
  readBlock State.reset.mem 0x050 5 = [0xF0, 0x90, 0x90, 0x90, 0xF0] ∧
  readBlock State.reset.mem 0x073 5 = [0xF0, 0x10, 0x20, 0x40, 0x40] ∧
  readBlock State.reset.mem 0x09B 5 = [0xF0, 0x80, 0xF0, 0x80, 0x80] ∧
  ∀ a, 0x050 ≤ a → a ≤ 0x09F → (readByte State.reset.mem a).toNat % 16 = 0

/-! ### The cycle -/

/-- When the two bytes at pc decode to i, a step is exec of i on the state whose opcode latch holds the word they form
big-endian and whose pc is advanced by 2 (40_cycle.md section 1: fetch, advance, decode, execute). -/
def Obligations.StepRunsDecodedInstruction : Prop :=
  ∀ (s : State) (i : Instr) (w : Word), CanFetch s →
    w.toNat = (readByte s.mem s.pc.toNat).toNat * 256 + (readByte s.mem (s.pc.toNat + 1)).toNat →
    decode [readByte s.mem s.pc.toNat, readByte s.mem (s.pc.toNat + 1)] = .ok (i, []) →
    step s = exec i { s with opcode := w, pc := s.pc + 2 }

/-- While a fault is recorded a cycle changes no state, and no host operation clears the fault or records another over
it (40_cycle.md section 1, 60_exceptions.md section 1; the spec's decisions D2 and D23). -/
def Obligations.RecordedFaultHaltsAndStays : Prop :=
  ∀ (s : State) (r : FaultRecord), s.fault = some r →
    step s = .next s ∧ ∀ op t res, hostOp op s = .next (t, res) → t.fault = some r

/-- The fetch checks: an odd pc faults first, then a pc above 0xFFE with its own address; nothing else changes
(40_cycle.md section 1; the spec's decision D7). -/
def Obligations.FetchChecksFault : Prop :=
  ∀ s : State, s.fault = none →
    (s.pc.toNat % 2 = 1 → step s = .next { s with fault := some ⟨.misalignedFetch, s.pc, 0⟩ }) ∧
    (s.pc.toNat % 2 = 0 → 0xFFE < s.pc.toNat →
      step s = .next { s with fault := some ⟨.memoryOutOfRange, s.pc, s.pc⟩ })

/-- Every step and every host operation answers a next state: no encoding is illegal and every fault is recorded in the
state (30_encoding.md section 4, 60_exceptions.md section 1; log 1: a fault is a next state). -/
def Obligations.EveryStepAnswersNext : Prop :=
  (∀ s : State, ∃ t, step s = .next t) ∧ ∀ op (s : State), ∃ t res, hostOp op s = .next (t, res)

/-- Faults are precise: a cycle that records a fault names the address it started from and changes nothing but the
fault register, and in execute also the fetch's writes (40_cycle.md section 1, 60_exceptions.md section 1; the spec's
decision D2). -/
def Obligations.FaultsArePrecise : Prop :=
  ∀ (s t : State) (r : FaultRecord), s.fault = none → step s = .next t → t.fault = some r →
    r.pc = s.pc ∧
    (CanFetch s → t = { s with opcode := fetchWord s.mem s.pc, pc := s.pc + 2, fault := some r }) ∧
    (¬ CanFetch s → t = { s with fault := some r })

/-- An instruction records a fault exactly when the table of fault reasons says so, with that reason
(60_exceptions.md section 1, the table of codes; D2 to D4, D6, D8). -/
def Obligations.FaultsExactlyAsTabulated : Prop :=
  ∀ (i : Instr) (s t : State), s.fault = none → exec i s = .next t → t.fault.map (·.reason) = raises i s

/-- Every word of the no-op space only advances pc and latches the opcode (40_cycle.md section 3; the words are those
that 30_encoding.md section 4 lists, SYS nnn among them). Which words these are, the keys that families 0, 8, E and F
dispatch on and their selectors, is the spec's decisions D11 and D21 (log 11). -/
def Obligations.NoOpSpaceOnlyAdvances : Prop :=
  ∀ s : State, CanFetch s → noOpWord (fetchWord s.mem s.pc) →
    step s = .next { s with opcode := fetchWord s.mem s.pc, pc := s.pc + 2 }

/-- The executed no-ops change nothing: SYS and the fallbacks of families 8, E and F (40_cycle.md, NOP;
41_control_flow.md, SYS). -/
def Obligations.NoOpInstructionsChangeNothing : Prop :=
  ∀ (s : State) (nnn : Imm12) (b : Byte) (u : BitVec 4),
    exec (.sys nnn) s = .next s ∧ exec (.nop8 b u) s = .next s ∧
    exec (.nopE u b) s = .next s ∧ exec (.nopF u b) s = .next s

/-- Key state is constant during a cycle (R98). -/
def Obligations.CycleKeepsKeys : Prop :=
  ∀ s t : State, step s = .next t → t.key = s.key

/-! ### Control flow -/

/-- JP nnn and JP V0, nnn write pc and nothing else; the target is not checked until the next fetch, where an odd one
faults MisalignedFetch, and for JP V0 an even one above 0xFFE faults MemoryOutOfRange (41_control_flow.md, JP; the
faults are the spec's decision D7). -/
def Obligations.JumpsWritePcUnchecked : Prop :=
  ∀ (s : State) (nnn : Imm12),
    (∃ t, exec (.jp nnn) s = .next t ∧ t.pc.toNat = nnn.toNat ∧ OnlyPc s t ∧
      (s.fault = none → nnn.toNat % 2 = 1 →
        step t = .next { t with fault := some ⟨.misalignedFetch, t.pc, 0⟩ })) ∧
    (∃ t, exec (.jpV0Nnn nnn) s = .next t ∧ t.pc.toNat = nnn.toNat + s.v[(0 : Reg)].toNat ∧ OnlyPc s t ∧
      (s.fault = none → t.pc.toNat % 2 = 1 →
        step t = .next { t with fault := some ⟨.misalignedFetch, t.pc, 0⟩ }) ∧
      (s.fault = none → t.pc.toNat % 2 = 0 → 0xFFE < t.pc.toNat →
        step t = .next { t with fault := some ⟨.memoryOutOfRange, t.pc, t.pc⟩ }))

/-- CALL nnn with room on the stack pushes pc (the call's address + 2) and jumps; with 16 entries in use it records
StackOverflow and nothing else (41_control_flow.md, CALL; the fault is the spec's decision D3). -/
def Obligations.CallPushesOrOverflows : Prop :=
  ∀ (s : State) (nnn : Imm12),
    (s.sp.val < 16 → ∃ t, exec (.call nnn) s = .next t ∧ t.pc.toNat = nnn.toNat ∧ t.sp.val = s.sp.val + 1 ∧
      (∀ j : Fin 16, t.stack[j] = if j.val = s.sp.val then s.pc else s.stack[j]) ∧
      t = { s with pc := t.pc, sp := t.sp, stack := t.stack }) ∧
    (s.sp.val = 16 → exec (.call nnn) s = .next { s with fault := some ⟨.stackOverflow, s.pc - 2, 0⟩ })

/-- RET with an entry on the stack pops it into pc and leaves it in its slot; with an empty stack it records
StackUnderflow and nothing else (41_control_flow.md, RET; the fault is the spec's decision D4). -/
def Obligations.RetPopsOrUnderflows : Prop :=
  ∀ (s : State) (u : BitVec 4),
    (∀ j : Fin 16, s.sp.val = j.val + 1 → ∃ t, exec (.ret u) s = .next t ∧ t.pc = s.stack[j] ∧ t.sp.val = j.val ∧
      t = { s with pc := t.pc, sp := t.sp }) ∧
    (s.sp.val = 0 → exec (.ret u) s = .next { s with fault := some ⟨.stackUnderflow, s.pc - 2, 0⟩ })

/-- A CALL whose target holds a RET: two cycles come back to the instruction after the call, with every register, the
stack pointer and memory as before (41_control_flow.md, RET: "Call followed immediately by return restores
programCounter to the instruction address immediately after the call"; 95_test_vectors.md S5). -/
def Obligations.CallThenReturnComesBack : Prop :=
  ∀ (s : State) (nnn : Imm12) (u : BitVec 4), CanFetch s → s.sp.val < 16 →
    decodeWord (fetchWord s.mem s.pc) = .call nnn → nnn.toNat % 2 = 0 → nnn.toNat ≤ 0xFFE →
    decodeWord (fetchWord s.mem (nnn.zeroExtend 16)) = .ret u →
    ∃ t w, step s = .next t ∧ step t = .next w ∧ w.pc = s.pc + 2 ∧ w.sp = s.sp ∧
      w = { s with pc := w.pc, stack := w.stack, opcode := w.opcode }

/-- SE Vx, kk and SNE Vx, kk add 2 to pc when the register equals, or differs from, the immediate, and change nothing
else; a skip that leaves pc = 0x1002 faults at the next fetch (41_control_flow.md, SE and SNE Vx, kk, which mark which
of the two is equality as general knowledge; the fault is the spec's decision D7). -/
def Obligations.SkipsOnImmediate : Prop :=
  ∀ (s : State) (x : Reg) (kk : Byte),
    (∃ t, exec (.seVxKk x kk) s = .next t ∧ (s.v[x] = kk → t.pc.toNat = (s.pc.toNat + 2) % 65536) ∧
      (s.v[x] ≠ kk → t.pc = s.pc) ∧ OnlyPc s t ∧
      (s.fault = none → t.pc = 0x1002 → step t = .next { t with fault := some ⟨.memoryOutOfRange, 0x1002, 0x1002⟩ })) ∧
    (∃ t, exec (.sneVxKk x kk) s = .next t ∧ (s.v[x] ≠ kk → t.pc.toNat = (s.pc.toNat + 2) % 65536) ∧
      (s.v[x] = kk → t.pc = s.pc) ∧ OnlyPc s t ∧
      (s.fault = none → t.pc = 0x1002 → step t = .next { t with fault := some ⟨.memoryOutOfRange, 0x1002, 0x1002⟩ }))

/-- SE Vx, Vy and SNE Vx, Vy compare two registers; the low nibble u of the word plays no part; x = y always skips in
the one and never in the other (41_control_flow.md, SE and SNE Vx, Vy; that the nibble is ignored is D11). -/
def Obligations.SkipsOnRegisters : Prop :=
  ∀ (s : State) (x y : Reg) (u : BitVec 4),
    (∃ t, exec (.seVxVy x y u) s = .next t ∧ (s.v[x] = s.v[y] → t.pc.toNat = (s.pc.toNat + 2) % 65536) ∧
      (s.v[x] ≠ s.v[y] → t.pc = s.pc) ∧ OnlyPc s t) ∧
    (∃ t, exec (.sneVxVy x y u) s = .next t ∧ (s.v[x] ≠ s.v[y] → t.pc.toNat = (s.pc.toNat + 2) % 65536) ∧
      (s.v[x] = s.v[y] → t.pc = s.pc) ∧ OnlyPc s t)

/-! ### Register and arithmetic instructions -/

/-- LD Vx, kk, ADD Vx, kk and LD Vx, Vy write Vx alone: the immediate, the sum mod 256 with no flag, the other register
(R120, R121, R122). -/
def Obligations.ImmediateAndCopyWriteVxOnly : Prop :=
  ∀ (s : State) (x y : Reg) (kk : Byte),
    (∃ t, exec (.ldVxKk x kk) s = .next t ∧ t.v[x] = kk ∧ OnlyRegs s t [x]) ∧
    (∃ t, exec (.addVxKk x kk) s = .next t ∧ t.v[x].toNat = (s.v[x].toNat + kk.toNat) % 256 ∧ OnlyRegs s t [x]) ∧
    (∃ t, exec (.ldVxVy x y) s = .next t ∧ t.v[x] = s.v[y] ∧ OnlyRegs s t [x])

/-- OR, AND and XOR work bit by bit on Vx and write Vx alone; VF keeps its value unless x = 0xF (42_register_alu.md, OR,
AND, XOR; that VF is kept is D12). -/
def Obligations.BitwiseWritesVxOnly : Prop :=
  ∀ (s : State) (x y : Reg),
    (∃ t, exec (.orVxVy x y) s = .next t ∧ OnlyRegs s t [x] ∧
      ∀ k, t.v[x].getLsbD k = (s.v[x].getLsbD k || s.v[y].getLsbD k)) ∧
    (∃ t, exec (.andVxVy x y) s = .next t ∧ OnlyRegs s t [x] ∧
      ∀ k, t.v[x].getLsbD k = (s.v[x].getLsbD k && s.v[y].getLsbD k)) ∧
    (∃ t, exec (.xorVxVy x y) s = .next t ∧ OnlyRegs s t [x] ∧
      ∀ k, t.v[x].getLsbD k = (s.v[x].getLsbD k ^^ s.v[y].getLsbD k))

/-- For x other than 0xF: the sum mod 256 with VF = carry, both subtractions mod 256 with VF = not-borrow, both shifts
by one with VF = the bit shifted out; no other register changes, and y may be 0xF (R132). -/
def Obligations.FlagArithmeticResultAndFlag : Prop :=
  ∀ (s : State) (x y : Reg), x ≠ 0xF →
    (∃ t, exec (.addVxVy x y) s = .next t ∧ t.v[x].toNat = (s.v[x].toNat + s.v[y].toNat) % 256 ∧
      t.v[(0xF : Reg)] = (if 255 < s.v[x].toNat + s.v[y].toNat then 1 else 0) ∧ OnlyRegs s t [x, 0xF]) ∧
    (∃ t, exec (.subVxVy x y) s = .next t ∧ (t.v[x].toNat : Int) = ((s.v[x].toNat : Int) - s.v[y].toNat) % 256 ∧
      t.v[(0xF : Reg)] = (if s.v[x].toNat ≥ s.v[y].toNat then 1 else 0) ∧ OnlyRegs s t [x, 0xF]) ∧
    (∃ t, exec (.subnVxVy x y) s = .next t ∧ (t.v[x].toNat : Int) = ((s.v[y].toNat : Int) - s.v[x].toNat) % 256 ∧
      t.v[(0xF : Reg)] = (if s.v[y].toNat ≥ s.v[x].toNat then 1 else 0) ∧ OnlyRegs s t [x, 0xF]) ∧
    (∃ t, exec (.shrVx x y) s = .next t ∧ t.v[x].toNat = s.v[x].toNat / 2 ∧
      t.v[(0xF : Reg)].toNat = s.v[x].toNat % 2 ∧ OnlyRegs s t [x, 0xF]) ∧
    (∃ t, exec (.shlVx x y) s = .next t ∧ t.v[x].toNat = s.v[x].toNat * 2 % 256 ∧
      t.v[(0xF : Reg)].toNat = s.v[x].toNat / 128 ∧ OnlyRegs s t [x, 0xF])

/-- With VF itself the destination: after an addition or subtraction VF holds the flag, after a shift the shifted value
(42_register_alu.md, the corner cases x = 0xF; the write order is the spec's decision D10, log 12). -/
def Obligations.FlagArithmeticOnVFItself : Prop :=
  ∀ (s : State) (y : Reg),
    (∃ t, exec (.addVxVy 0xF y) s = .next t ∧ OnlyRegs s t [0xF] ∧
      t.v[(0xF : Reg)] = if 255 < s.v[(0xF : Reg)].toNat + s.v[y].toNat then 1 else 0) ∧
    (∃ t, exec (.subVxVy 0xF y) s = .next t ∧ OnlyRegs s t [0xF] ∧
      t.v[(0xF : Reg)] = if s.v[(0xF : Reg)].toNat ≥ s.v[y].toNat then 1 else 0) ∧
    (∃ t, exec (.subnVxVy 0xF y) s = .next t ∧ OnlyRegs s t [0xF] ∧
      t.v[(0xF : Reg)] = if s.v[y].toNat ≥ s.v[(0xF : Reg)].toNat then 1 else 0) ∧
    (∃ t, exec (.shrVx 0xF y) s = .next t ∧ OnlyRegs s t [0xF] ∧
      t.v[(0xF : Reg)].toNat = s.v[(0xF : Reg)].toNat / 2) ∧
    (∃ t, exec (.shlVx 0xF y) s = .next t ∧ OnlyRegs s t [0xF] ∧
      t.v[(0xF : Reg)].toNat = s.v[(0xF : Reg)].toNat * 2 % 256)

/-! ### Index, random, decimal, block transfer -/

/-- LD I, nnn and LD F, Vx write I alone: the zero-extended immediate, and 0x050 + 5 times the low nibble, always in
0x050..0x09B (R140, R142). -/
def Obligations.LoadIndexImmediateAndGlyph : Prop :=
  ∀ (s : State) (nnn : Imm12) (x : Reg),
    (∃ t, exec (.ldINnn nnn) s = .next t ∧ t.index.toNat = nnn.toNat ∧ OnlyIndex s t) ∧
    (∃ t, exec (.ldFVx x) s = .next t ∧ t.index.toNat = 0x050 + 5 * (s.v[x].toNat % 16) ∧
      0x050 ≤ t.index.toNat ∧ t.index.toNat ≤ 0x09B ∧ OnlyIndex s t)

/-- ADD I, Vx adds mod 65536, keeps a result above 0xFFF and writes no flag (43_index_memory.md, ADD I; the wrap and the
untouched VF are D14). -/
def Obligations.AddIndexWrapsAt65536 : Prop :=
  ∀ (s : State) (x : Reg), ∃ t, exec (.addIVx x) s = .next t ∧
    t.index.toNat = (s.index.toNat + s.v[x].toNat) % 65536 ∧ OnlyIndex s t

/-- RND Vx, kk writes the next random byte AND kk into Vx, so bits outside kk are 0, draws exactly one byte whatever kk
is, and changes nothing else (43_index_memory.md, RND). The random byte is a free value selected by the model's own
counter (log 3); the statement holds for every value of the counter and of the byte. -/
def Obligations.RandomByteIsMasked : Prop :=
  ∀ (s : State) (x : Reg) (kk : Byte), ∃ t, exec (.rndVxKk x kk) s = .next t ∧
    t.v[x] = Config.randomByte s.draws &&& kk ∧
    (∀ k, kk.getLsbD k = false → t.v[x].getLsbD k = false) ∧
    t.draws = s.draws + 1 ∧ t = { s with v := t.v, draws := t.draws } ∧ ∀ r, r ≠ x → t.v[r] = s.v[r]

/-- LD B, Vx stores hundreds, tens and ones of Vx at I, I+1, I+2 when they are in memory, and changes nothing else
(43_index_memory.md, LD B; the range check is D6). -/
def Obligations.DecimalDigitsStoredAtIndex : Prop :=
  ∀ (s : State) (x : Reg), Memory.wf s.mem → indexBase s + 2 ≤ 0xFFF →
    ∃ t, exec (.ldBVx x) s = .next t ∧
      (readByte t.mem (indexBase s)).toNat = s.v[x].toNat / 100 ∧
      (readByte t.mem (indexBase s + 1)).toNat = s.v[x].toNat / 10 % 10 ∧
      (readByte t.mem (indexBase s + 2)).toNat = s.v[x].toNat % 10 ∧
      (∀ a, a < indexBase s ∨ indexBase s + 2 < a → readByte t.mem a = readByte s.mem a) ∧
      t = { s with mem := t.mem }

/-- LD [I], Vx stores V0..Vx at I..I+x, x included, when they are in memory; I and every other byte and field keep
their values (43_index_memory.md, LD [I], Vx; D6, and D13 for the unchanged I). -/
def Obligations.RegistersStoredAtIndex : Prop :=
  ∀ (s : State) (x : Reg), Memory.wf s.mem → indexBase s + x.val ≤ 0xFFF →
    ∃ t, exec (.ldMemVx x) s = .next t ∧
      (∀ r : Reg, r ≤ x → readByte t.mem (indexBase s + r.val) = s.v[r]) ∧
      (∀ a, a < indexBase s ∨ indexBase s + x.val < a → readByte t.mem a = readByte s.mem a) ∧
      t = { s with mem := t.mem }

/-- LD Vx, [I] loads V0..Vx from I..I+x, x included, when they are in memory; the registers above x, I and everything
else keep their values (43_index_memory.md, LD Vx, [I]; D6, D13). -/
def Obligations.RegistersLoadedFromIndex : Prop :=
  ∀ (s : State) (x : Reg), indexBase s + x.val ≤ 0xFFF →
    ∃ t, exec (.ldVxMem x) s = .next t ∧
      (∀ r : Reg, r ≤ x → t.v[r] = readByte s.mem (indexBase s + r.val)) ∧
      (∀ r : Reg, x < r → t.v[r] = s.v[r]) ∧ t = { s with v := t.v }

/-- An access past 0xFFF by Fx33, Fx55, Fx65 or Dxyn with n > 0 records MemoryOutOfRange with the LOWEST out-of-range
address among those it would access, and does nothing else: no partial store or load, no pixel, no VF (20_memory.md
section 3; the spec's decision D6). -/
def Obligations.AccessPastTopWritesNothing : Prop :=
  ∀ (s : State) (i : Instr) (n : Nat),
    ((∃ x, i = .ldBVx x ∧ n = 3) ∨ (∃ x : Reg, i = .ldMemVx x ∧ n = x.val + 1) ∨
      (∃ x : Reg, i = .ldVxMem x ∧ n = x.val + 1) ∨ (∃ x y k, i = .drwVxVyN x y k ∧ n = k.toNat)) →
    (∃ a, indexBase s ≤ a ∧ a < indexBase s + n ∧ 0xFFF < a) →
    ∃ info : Word, exec i s = .next { s with fault := some ⟨.memoryOutOfRange, s.pc - 2, info⟩ } ∧
      0xFFF < info.toNat ∧ indexBase s ≤ info.toNat ∧ info.toNat < indexBase s + n ∧
      ∀ a, indexBase s ≤ a → a < info.toNat → a ≤ 0xFFF

/-- What LD [I], Vx stored, LD Vx, [I] loads back, whatever the registers hold in between (43_index_memory.md, the two
block transfers; I is unchanged by both, D13). -/
def Obligations.StoreThenLoadRestoresRegisters : Prop :=
  ∀ (s t u : State) (x : Reg) (regs : Vector Byte 16), Memory.wf s.mem → indexBase s + x.val ≤ 0xFFF →
    exec (.ldMemVx x) s = .next t → exec (.ldVxMem x) { t with v := regs } = .next u →
    ∀ r : Reg, u.v[r] = if r ≤ x then s.v[r] else regs[r]

/-- A store over the next instruction is what the next cycle runs: with I = pc, LD [I], Vx (x at least 1) is followed by
the instruction that V0 and V1 form, big-endian, with no fence or delay (20_memory.md section 6,
70_reset_and_hazards.md section 3; the spec marks the coherence as derived). -/
def Obligations.StoreIsFetchedByNextCycle : Prop :=
  ∀ (s : State) (x : Reg), Memory.wf s.mem → CanFetch s → s.index = s.pc → 1 ≤ x.val → indexBase s + x.val ≤ 0xFFF →
    ∃ t, exec (.ldMemVx x) s = .next t ∧
      step t = exec (decodeWord (s.v[(0 : Reg)] ++ s.v[(1 : Reg)]))
        { t with opcode := s.v[(0 : Reg)] ++ s.v[(1 : Reg)], pc := s.pc + 2 }

/-! ### Display -/

/-- DRW, pixel by pixel: every screen pixel is XORed with the sprite's bit at its position (origin Vx mod 64, Vy mod 32,
bit 7 - col of byte row), what lies off the screen is clipped, VF is 1 exactly when a set bit fell on a lit pixel, and
nothing else changes (44_display.md; clipping is D5, the latched coordinates D10, the bit order D20, the range D6). -/
def Obligations.DrawXorsSpriteAndReportsCollision : Prop :=
  ∀ (s : State) (x y : Reg) (n : BitVec 4), n.toNat = 0 ∨ indexBase s + n.toNat - 1 ≤ 0xFFF →
    ∃ t, exec (.drwVxVyN x y n) s = .next t ∧
      (∀ px py, px < 64 → py < 32 → pixel t.fb px py =
        (pixel s.fb px py ^^ spriteBit (s.v[x].toNat % 64) (s.v[y].toNat % 32)
          (readBlock s.mem (indexBase s) n.toNat) px py)) ∧
      ((∃ px py, px < 64 ∧ py < 32 ∧ pixel s.fb px py = true ∧ spriteBit (s.v[x].toNat % 64) (s.v[y].toNat % 32)
          (readBlock s.mem (indexBase s) n.toNat) px py = true) → t.v[(0xF : Reg)] = 1) ∧
      ((¬ ∃ px py, px < 64 ∧ py < 32 ∧ pixel s.fb px py = true ∧ spriteBit (s.v[x].toNat % 64) (s.v[y].toNat % 32)
          (readBlock s.mem (indexBase s) n.toNat) px py = true) → t.v[(0xF : Reg)] = 0) ∧
      (∀ r : Reg, r ≠ 0xF → t.v[r] = s.v[r]) ∧ t = { s with v := t.v, fb := t.fb }

/-- DRW is the nested loop of the spec's pseudocode: over the rows and the eight columns of each, toggle and report
(44_display.md, DRW; the model draws row by row, log 8). -/
def Obligations.DrawEqualsSpecLoop : Prop :=
  ∀ (s : State) (x y : Reg) (n : BitVec 4), n.toNat = 0 ∨ indexBase s + n.toNat - 1 ≤ 0xFFF →
    exec (.drwVxVyN x y n) s =
      .next ((s.setFb (drawLoop (s.v[x].toNat % 64) (s.v[y].toNat % 32) 0
          (readBlock s.mem (indexBase s) n.toNat) (s.fb, false)).1).setFlag
        (if (drawLoop (s.v[x].toNat % 64) (s.v[y].toNat % 32) 0
          (readBlock s.mem (indexBase s) n.toNat) (s.fb, false)).2 then 1 else 0))

/-- Height 0 reads no memory and draws nothing: VF becomes 0 and nothing else changes, whatever I is (44_display.md,
height 0; the spec marks it derived). -/
def Obligations.DrawHeightZeroClearsVF : Prop :=
  ∀ (s : State) (x y : Reg), ∃ t, exec (.drwVxVyN x y 0) s = .next t ∧ t.v[(0xF : Reg)] = 0 ∧ OnlyRegs s t [0xF]

/-- Drawing the same sprite at the same place twice restores the framebuffer, and the second draw reports a collision
exactly when a set, on-screen sprite bit fell on a pixel that was unlit before the first (44_display.md section on XOR
compositing; 95_test_vectors.md S7 as corrected by 90_conflicts.md C2). The coordinates are registers other than VF,
which the first draw overwrites. -/
def Obligations.DrawTwiceRestoresScreen : Prop :=
  ∀ (s t u : State) (x y : Reg) (n : BitVec 4), x ≠ 0xF → y ≠ 0xF →
    n.toNat = 0 ∨ indexBase s + n.toNat - 1 ≤ 0xFFF →
    exec (.drwVxVyN x y n) s = .next t → exec (.drwVxVyN x y n) t = .next u →
    u.fb = s.fb ∧
    (u.v[(0xF : Reg)] = 1 ↔ ∃ px py, px < 64 ∧ py < 32 ∧ pixel s.fb px py = false ∧
      spriteBit (s.v[x].toNat % 64) (s.v[y].toNat % 32) (readBlock s.mem (indexBase s) n.toNat) px py = true)

/-- CLS sets every pixel to unlit and changes nothing else (R166). -/
def Obligations.ClearScreenUnlightsEveryPixel : Prop :=
  ∀ (s : State) (u : BitVec 4), ∃ t, exec (.cls u) s = .next t ∧
    (∀ px py, px < 64 → py < 32 → pixel t.fb px py = false) ∧ t = { s with fb := t.fb }

/-! ### Input and timers -/

/-- SKP and SKNP with Vx at most 15 skip when the key is, or is not, pressed, and change only pc (45_input_timers.md,
SKP and SKNP; D27 for the level test). -/
def Obligations.KeySkipsTestKeyState : Prop :=
  ∀ (s : State) (x : Reg) (k : Fin 16), s.v[x].toNat = k.val →
    (∃ t, exec (.skpVx x) s = .next t ∧ (s.key[k] = true → t.pc.toNat = (s.pc.toNat + 2) % 65536) ∧
      (s.key[k] = false → t.pc = s.pc) ∧ OnlyPc s t) ∧
    (∃ t, exec (.sknpVx x) s = .next t ∧ (s.key[k] = false → t.pc.toNat = (s.pc.toNat + 2) % 65536) ∧
      (s.key[k] = true → t.pc = s.pc) ∧ OnlyPc s t)

/-- SKP and SKNP with Vx above 15 record KeyIndexOutOfRange and do nothing else (45_input_timers.md, SKP and SKNP; the
spec's decision D8). -/
def Obligations.KeyNumberAbove15Faults : Prop :=
  ∀ (s : State) (x : Reg), 15 < s.v[x].toNat →
    exec (.skpVx x) s = .next { s with fault := some ⟨.keyIndexOutOfRange, s.pc - 2, 0⟩ } ∧
    exec (.sknpVx x) s = .next { s with fault := some ⟨.keyIndexOutOfRange, s.pc - 2, 0⟩ }

/-- LD Vx, DT copies the delay timer into Vx; LD DT, Vx and LD ST, Vx copy Vx into a timer, and sound is active from
then on exactly when Vx is not 0; nothing else changes (R182, R183, R184). -/
def Obligations.TimerAccessCopies : Prop :=
  ∀ (s : State) (x : Reg),
    (∃ t, exec (.ldVxDt x) s = .next t ∧ t.v[x] = s.dt ∧ OnlyRegs s t [x]) ∧
    (∃ t, exec (.ldDtVx x) s = .next t ∧ t.dt = s.v[x] ∧ t = { s with dt := t.dt }) ∧
    (∃ t, exec (.ldStVx x) s = .next t ∧ t.st = s.v[x] ∧ t = { s with st := t.st } ∧
      (soundActive t = true ↔ s.v[x] ≠ 0))

/-- LD Vx, K: with a key pressed Vx receives the lowest-numbered pressed key and nothing else changes; with none, pc
goes back by 2 and nothing else changes, so that the cycle, apart from the opcode latch, leaves the state as it was
(45_input_timers.md, LD Vx, K; that the level is tested and no release awaited is the spec's decision D27). -/
def Obligations.KeyWaitTakesLowestOrRewinds : Prop :=
  (∀ (s : State) (x : Reg) (k : Fin 16), s.key[k] = true → (∀ j : Fin 16, j < k → s.key[j] = false) →
    ∃ t, exec (.ldVxK x) s = .next t ∧ t.v[x].toNat = k.val ∧ OnlyRegs s t [x]) ∧
  (∀ (s : State) (x : Reg), (∀ k : Fin 16, s.key[k] = false) →
    ∃ t, exec (.ldVxK x) s = .next t ∧ t.pc = s.pc - 2 ∧ OnlyPc s t) ∧
  (∀ (s : State) (x : Reg), (∀ k : Fin 16, s.key[k] = false) → CanFetch s →
    decodeWord (fetchWord s.mem s.pc) = .ldVxK x → step s = .next { s with opcode := fetchWord s.mem s.pc })

/-- A tick takes 1 from each timer that is not 0, independently, changes nothing else and works while a fault is
recorded; ticks are the only way the timers count down: no cycle changes a timer except by running Fx15 or Fx18, and no
other host operation changes one (60_exceptions.md section 3, 40_cycle.md section 2). That a tick works while a fault is
recorded and that no cycle counts the timers down is the spec's decision D15 (log 13). -/
def Obligations.OnlyTicksCountTimersDown : Prop :=
  (∀ s : State, ∃ t, hostOp .tickTimers s = .next (t, .nothing) ∧ t.dt.toNat = s.dt.toNat - 1 ∧
    t.st.toNat = s.st.toNat - 1 ∧ t = { s with dt := t.dt, st := t.st }) ∧
  (∀ s t : State, step s = .next t →
    (t.dt ≠ s.dt → ∃ x, decodeWord (fetchWord s.mem s.pc) = .ldDtVx x) ∧
    (t.st ≠ s.st → ∃ x, decodeWord (fetchWord s.mem s.pc) = .ldStVx x)) ∧
  (∀ op (s t : State) (res : HostResult), hostOp op s = .next (t, res) → op ≠ .cycle → op ≠ .tickTimers →
    t.dt = s.dt ∧ t.st = s.st)

/-! ### The host's operations -/

/-- A load of at most 3584 bytes copies them to 0x200 and up and changes nothing else, in any state, with a fault
recorded too (20_memory.md section 5; that nothing else changes is D18). -/
def Obligations.LoadCopiesImageAt0x200 : Prop :=
  ∀ (s : State) (bytes : List Byte), Memory.wf s.mem → bytes.length ≤ 3584 →
    ∃ t, hostOp (.load bytes) s = .next (t, .loaded .ok) ∧
      (∀ k, k < bytes.length → readByte t.mem (0x200 + k) = bytes.getD k 0) ∧
      (∀ a, a < 0x200 ∨ 0x200 + bytes.length ≤ a → readByte t.mem a = readByte s.mem a) ∧
      t = { s with mem := t.mem }

/-- A load of more than 3584 bytes is rejected with ImageTooLarge and has no effect, no fault among them (R63). -/
def Obligations.OversizedLoadChangesNothing : Prop :=
  ∀ (s : State) (bytes : List Byte), 3584 < bytes.length →
    hostOp (.load bytes) s = .next (s, .loaded .imageTooLarge)

/-- setKey sets one key and changes nothing else; the framebuffer view, soundActive (ST > 0) and faultStatus give what
the state holds and change nothing (10_state.md section 10; D1, D2, D26). -/
def Obligations.KeyInputAndHostViews : Prop :=
  ∀ (s : State) (k : Fin 16) (pressed : Bool),
    (∃ t, hostOp (.setKey k pressed) s = .next (t, .nothing) ∧ t.key[k] = pressed ∧
      (∀ j : Fin 16, j ≠ k → t.key[j] = s.key[j]) ∧ t = { s with key := t.key }) ∧
    hostOp .framebuffer s = .next (s, .pixels s.fb) ∧
    hostOp .faultStatus s = .next (s, .status s.fault) ∧
    ∃ b, hostOp .soundActive s = .next (s, .sound b) ∧ (b = true ↔ 0 < s.st.toNat)

/-! ### Who writes what, over all instructions -/

/-- No instruction writes a general register that the list of R22 does not name for it (10_state.md section 1; the spec
marks the list derived). -/
def Obligations.RegistersWrittenOnlyAsListed : Prop :=
  ∀ (i : Instr) (s t : State) (r : Reg), exec i s = .next t → ¬ writesReg i r → t.v[r] = s.v[r]

/-- Memory is written only by Fx33 and Fx55, the framebuffer only by 00E0 and Dxyn, I only by Annn, Fx1E and Fx29, the
call stack only by 2nnn and 00EE, the keys and the opcode latch by no instruction in execute, and only Cxkk draws a
random byte, exactly one (10_state.md sections 4, 5, 8 and 10, 20_memory.md section 5). -/
def Obligations.StateWrittenOnlyByItsInstructions : Prop :=
  ∀ (i : Instr) (s t : State), exec i s = .next t →
    (writesMem i = false → t.mem = s.mem) ∧ (writesFb i = false → t.fb = s.fb) ∧
    (writesIndex i = false → t.index = s.index) ∧
    (usesStack i = false → t.stack = s.stack ∧ t.sp = s.sp) ∧ t.key = s.key ∧ t.opcode = s.opcode ∧
    (t.draws = s.draws + 1 ↔ ∃ x kk, i = .rndVxKk x kk) ∧ (t.draws = s.draws ∨ t.draws = s.draws + 1)

/-- In execute pc changes in exactly the ways listed: not at all, by 2 for a skip taken, back by 2 for Fx0A, or to an
absolute target for 1nnn, 2nnn, 00EE and Bnnn (10_state.md section 2; arithmetic mod 65536 is D22). -/
def Obligations.PcChangesOnlyAsListed : Prop :=
  ∀ (i : Instr) (s t : State), exec i s = .next t → jumps i = false →
    t.pc = s.pc ∨ (skips i = true ∧ t.pc = s.pc + 2) ∨ (∃ x, i = .ldVxK x ∧ t.pc = s.pc - 2)

/-! ### Invariants -/

/-- The invariant holds after reset. -/
def Obligations.InvariantAtReset : Prop := Inv State.reset

/-- Every step keeps the invariant: memory stays in canonical form, pc never passes 0x10FE, every stack entry stays a
possible return address, a recorded fault stays one the spec describes (10_state.md sections 2, 5 and 9, which mark the
bounds as decisions D2, D22 and D28). -/
def Obligations.StepKeepsInvariant : Prop :=
  ∀ s t : State, Inv s → step s = .next t → Inv t

/-- Any sequence of host operations, cycles among them, keeps the invariant (10_state.md section 10,
70_reset_and_hazards.md section 3: any number of ticks between two cycles). -/
def Obligations.HostRunsKeepInvariant : Prop :=
  ∀ (ops : List HostOp) (s t : State) (res : List HostResult), Inv s → runHost ops s = .next (t, res) → Inv t

/-- Two memories in canonical form that read alike at every address are the same data (log 6). -/
def Obligations.MemoryEqualWhenReadsAgree : Prop :=
  ∀ m m' : Memory, Memory.wf m → Memory.wf m' → (∀ a, readByte m a = readByte m' a) → m = m'

/-! ### Encoding -/

/-- Decoding an encoded well-formed instruction gives it back, with every operand at every value, and leaves the bytes
that follow (30_encoding.md sections 1 to 3; the patterns are D21, log 11). -/
def Obligations.DecodeOfEncodeIsInstruction : Prop :=
  ∀ (i : Instr) (rest : List Byte), i.wf = true →
    decode (bytesOfWord (encode i) ++ rest) = .ok (i, rest)

/-- Every word decodes to a well-formed instruction whose encoding is that word: no bit is dropped and no word is left
without a meaning (30_encoding.md sections 3 and 4; D11, D21, log 11). -/
def Obligations.EncodeOfDecodeIsWord : Prop :=
  ∀ w : Word, (decodeWord w).wf = true ∧ encode (decodeWord w) = w

/-- The decoder follows the opcode map: the row of the decoded instruction is chosen for the word by its mask, its match
and the fallback rule, and no other row of the table is (30_encoding.md section 3, opcode_table.json; D11, D21,
log 11; the spec marks the completeness of the table derived). -/
def Obligations.DecoderFollowsOpcodeMap : Prop :=
  ∀ w : Word, (decodeWord w).row ∈ plainRows ++ fallbackRows ∧ (decodeWord w).row.chosen w = true ∧
    ∀ r ∈ plainRows ++ fallbackRows, r.chosen w = true → r = (decodeWord w).row

/-- The six words that the source itself shows, and the two aliases that the low-byte dispatch of family 0 makes
(30_encoding.md section 1, 95_test_vectors.md S11, S12; the aliases are D11). -/
def Obligations.SampleWordsDecode : Prop :=
  decodeWord 0x6005 = .ldVxKk 0 0x05 ∧ decodeWord 0x6103 = .ldVxKk 1 0x03 ∧ decodeWord 0x8014 = .addVxVy 0 1 ∧
  decodeWord 0x00E0 = .cls 0 ∧ decodeWord 0xA050 = .ldINnn 0x050 ∧ decodeWord 0xD005 = .drwVxVyN 0 0 5 ∧
  decodeWord 0x01EE = .ret 1 ∧ decodeWord 0x0123 = .sys 0x123
end

