-- ==== Sys2Proof/Laws/Decode.lean ====
section
/-! SUPPORT. The fields of the words the encoder builds, and the words rebuilt from their fields, bit by bit. -/

namespace Sys2Proof

/-! ### Bits of a built word and of a field -/

theorem getLsbD_formatNNN (op : BitVec 4) (nnn : Imm12) (k : Nat) :
    (formatNNN op nnn).getLsbD k = if k < 12 then nnn.getLsbD k else op.getLsbD (k - 12) := by
  exact (BitVec.getLsbD_append).trans (by split <;> rfl)

theorem getLsbD_formatXKK (op x : BitVec 4) (kk : Byte) (k : Nat) :
    (formatXKK op x kk).getLsbD k =
      if k < 8 then kk.getLsbD k else if k < 12 then x.getLsbD (k - 8) else op.getLsbD (k - 12) := by
  refine (BitVec.getLsbD_append (x := op) (y := x ++ kk)).trans ?_
  by_cases h : k < 12
  · refine (by simp only [h, if_true] : _ = (x ++ kk).getLsbD k).trans ?_
    refine (BitVec.getLsbD_append (x := x) (y := kk)).trans ?_
    by_cases h' : k < 8 <;> simp [h, h']
  · simp [h, show ¬ k < 8 by omega]

theorem getLsbD_formatXYN (op x y n : BitVec 4) (k : Nat) :
    (formatXYN op x y n).getLsbD k =
      if k < 4 then n.getLsbD k else if k < 8 then y.getLsbD (k - 4)
      else if k < 12 then x.getLsbD (k - 8) else op.getLsbD (k - 12) := by
  refine (BitVec.getLsbD_append (x := op) (y := x ++ (y ++ n))).trans ?_
  by_cases h : k < 12
  · refine (by simp only [h, if_true] : _ = (x ++ (y ++ n)).getLsbD k).trans ?_
    refine (BitVec.getLsbD_append (x := x) (y := y ++ n)).trans ?_
    by_cases h' : k < 8
    · refine (by simp only [h', if_true] : _ = (y ++ n).getLsbD k).trans ?_
      refine (BitVec.getLsbD_append (x := y) (y := n)).trans ?_
      by_cases h'' : k < 4 <;> simp [h', h'']
    · simp [h, h', show ¬ k < 4 by omega]
  · simp [h, show ¬ k < 8 by omega, show ¬ k < 4 by omega]

/-- The no-op word of family 8 in format XYN. -/
theorem encode_nop8 (u : Byte) (n : BitVec 4) :
    encode (.nop8 u n) = formatXYN 0x8 (u.extractLsb' 4 4) (u.extractLsb' 0 4) n := by
  ext k hk
  rw [← BitVec.getLsbD_eq_getElem, ← BitVec.getLsbD_eq_getElem, getLsbD_formatXYN]
  refine (BitVec.getLsbD_append (x := 0x8#4) (y := u ++ n)).trans ?_
  by_cases h : k < 12
  · refine (by simp only [h, if_true] : _ = (u ++ n).getLsbD k).trans ?_
    refine (BitVec.getLsbD_append (x := u) (y := n)).trans ?_
    by_cases h'' : k < 4
    · simp [h'']
    · by_cases h' : k < 8
      · simp [h', h'', show k - 4 < 4 by omega]
      · simp [h, h', h'', show 4 + (k - 8) = k - 4 by omega, show k - 8 < 4 by omega]
  · simp [h, show ¬ k < 8 by omega, show ¬ k < 4 by omega]

theorem getLsbD_opField (w : Word) (k : Nat) : (opField w).getLsbD k = (decide (k < 4) && w.getLsbD (12 + k)) := by
  simp [opField]

theorem getLsbD_nibble2 (w : Word) (k : Nat) : (nibble2 w).getLsbD k = (decide (k < 4) && w.getLsbD (8 + k)) := by
  simp [nibble2]

theorem getLsbD_nField (w : Word) (k : Nat) : (nField w).getLsbD k = (decide (k < 4) && w.getLsbD k) := by
  simp [nField]

theorem getLsbD_kkField (w : Word) (k : Nat) : (kkField w).getLsbD k = (decide (k < 8) && w.getLsbD k) := by
  simp [kkField]

theorem getLsbD_nnnField (w : Word) (k : Nat) : (nnnField w).getLsbD k = (decide (k < 12) && w.getLsbD k) := by
  simp [nnnField]

theorem getLsbD_midByte (w : Word) (k : Nat) : (midByte w).getLsbD k = (decide (k < 8) && w.getLsbD (4 + k)) := by
  simp [midByte]

/-! ### Fields of a built word -/

section fields
variable (op x y n : BitVec 4) (kk : Byte) (nnn : Imm12)

@[simp] theorem opField_formatNNN : opField (formatNNN op nnn) = op := by
  apply BitVec.eq_of_getLsbD_eq; intro k hk
  rw [getLsbD_opField, getLsbD_formatNNN]
  simp [hk]

@[simp] theorem nnnField_formatNNN : nnnField (formatNNN op nnn) = nnn := by
  apply BitVec.eq_of_getLsbD_eq; intro k hk
  rw [getLsbD_nnnField, getLsbD_formatNNN]
  simp [hk]

@[simp] theorem kkField_formatNNN : kkField (formatNNN op nnn) = nnn.extractLsb' 0 8 := by
  apply BitVec.eq_of_getLsbD_eq; intro k hk
  rw [getLsbD_kkField, getLsbD_formatNNN]
  simp [show k < 12 by omega]

@[simp] theorem opField_formatXKK : opField (formatXKK op x kk) = op := by
  apply BitVec.eq_of_getLsbD_eq; intro k hk
  rw [getLsbD_opField, getLsbD_formatXKK]
  simp [hk, show ¬ 12 + k < 8 by omega]

@[simp] theorem nibble2_formatXKK : nibble2 (formatXKK op x kk) = x := by
  apply BitVec.eq_of_getLsbD_eq; intro k hk
  rw [getLsbD_nibble2, getLsbD_formatXKK]
  simp [hk, show 8 + k < 12 by omega]

@[simp] theorem kkField_formatXKK : kkField (formatXKK op x kk) = kk := by
  apply BitVec.eq_of_getLsbD_eq; intro k hk
  rw [getLsbD_kkField, getLsbD_formatXKK]
  simp [hk]

@[simp] theorem opField_formatXYN : opField (formatXYN op x y n) = op := by
  apply BitVec.eq_of_getLsbD_eq; intro k hk
  rw [getLsbD_opField, getLsbD_formatXYN]
  simp [hk, show ¬ 12 + k < 8 by omega, show ¬ 12 + k < 4 by omega]

@[simp] theorem nibble2_formatXYN : nibble2 (formatXYN op x y n) = x := by
  apply BitVec.eq_of_getLsbD_eq; intro k hk
  rw [getLsbD_nibble2, getLsbD_formatXYN]
  simp [hk, show 8 + k < 12 by omega, show ¬ 8 + k < 4 by omega]

@[simp] theorem yField_formatXYN : yField (formatXYN op x y n) = y.toFin := by
  have : (formatXYN op x y n).extractLsb' 4 4 = y := by
    apply BitVec.eq_of_getLsbD_eq; intro k hk
    simp [getLsbD_formatXYN, hk, show 4 + k < 8 by omega]
  rw [yField, this]

@[simp] theorem nField_formatXYN : nField (formatXYN op x y n) = n := by
  apply BitVec.eq_of_getLsbD_eq; intro k hk
  rw [getLsbD_nField, getLsbD_formatXYN]
  simp [hk]

end fields

@[simp] theorem regBits_toFin (x : Reg) : (regBits x).toFin = x := rfl

theorem xField_eq (w : Word) : xField w = (nibble2 w).toFin := rfl

@[simp] theorem regBits_xField (w : Word) : regBits (xField w) = nibble2 w := rfl

@[simp] theorem regBits_yField (w : Word) : regBits (yField w) = w.extractLsb' 4 4 := rfl

/-! ### A word rebuilt from its fields -/

theorem formatNNN_fields (w : Word) : formatNNN (opField w) (nnnField w) = w := by
  apply BitVec.eq_of_getLsbD_eq; intro k hk
  rw [getLsbD_formatNNN, getLsbD_nnnField, getLsbD_opField]
  split
  · next h => simp [h]
  · simp [show k - 12 < 4 by omega, show 12 + (k - 12) = k by omega]

theorem formatXKK_fields (w : Word) : formatXKK (opField w) (nibble2 w) (kkField w) = w := by
  apply BitVec.eq_of_getLsbD_eq; intro k hk
  rw [getLsbD_formatXKK, getLsbD_kkField, getLsbD_opField, getLsbD_nibble2]
  split
  · next h => simp [h]
  · split
    · simp [show k - 8 < 4 by omega, show 8 + (k - 8) = k by omega]
    · simp [show k - 12 < 4 by omega, show 12 + (k - 12) = k by omega]

theorem formatXYN_fields (w : Word) :
    formatXYN (opField w) (nibble2 w) (w.extractLsb' 4 4) (nField w) = w := by
  apply BitVec.eq_of_getLsbD_eq; intro k hk
  rw [getLsbD_formatXYN, getLsbD_nField, getLsbD_opField, getLsbD_nibble2, BitVec.getLsbD_extractLsb']
  split
  · next h => simp [h]
  · split
    · simp [show k - 4 < 4 by omega, show 4 + (k - 4) = k by omega]
    · split
      · simp [show k - 8 < 4 by omega, show 8 + (k - 8) = k by omega]
      · simp [show k - 12 < 4 by omega, show 12 + (k - 12) = k by omega]

theorem wordOfBytes_bytes (w : Word) : wordOfBytes (w.extractLsb' 8 8) (w.extractLsb' 0 8) = w := by
  apply BitVec.eq_of_getLsbD_eq; intro k hk
  refine (BitVec.getLsbD_append (x := w.extractLsb' 8 8) (y := w.extractLsb' 0 8)).trans ?_
  by_cases h : k < 8
  · simp [h]
  · simp [h, show k - 8 < 8 by omega, show 8 + (k - 8) = k by omega]

/-- The big-endian sum of R57 and R92: high byte times 256 plus low byte. -/
theorem wordOfBytes_toNat (hi lo : Byte) : (wordOfBytes hi lo).toNat = hi.toNat * 256 + lo.toNat := by
  have := lo.isLt
  rw [wordOfBytes, BitVec.toNat_append, ← Nat.shiftLeft_add_eq_or_of_lt (by omega), Nat.shiftLeft_eq]

/-- Two bytes or more always decode (R79). -/
@[simp] theorem decode_cons_cons (hi lo : Byte) (rest : List Byte) :
    decode (hi :: lo :: rest) = .ok (decodeWord (wordOfBytes hi lo), rest) := rfl

/-- Decoding the two bytes of a word decodes the word. -/
theorem decode_bytesOfWord (w : Word) (rest : List Byte) :
    decode (bytesOfWord w ++ rest) = .ok (decodeWord w, rest) := by
  simp [bytesOfWord, wordOfBytes_bytes]

end Sys2Proof
end

