-- ==== Sys2Proof/Laws/Memory.lean ====
section
/-! SUPPORT. The laws of memory: every operation keeps the canonical form, a read after a write gives the value written,
and a write leaves every other address alone. -/

namespace Sys2Proof.Machine

@[simp] theorem readByte_nil (a : Nat) : readByte [] a = unlistedByte a := rfl

theorem readByte_cons (c : Host.Cell) (m : Memory) (a : Nat) :
    readByte (c :: m) a = if a = c.1 then c.2 else readByte m a := rfl

/-- An address that no cell lists reads as its reset contents. -/
theorem readByte_unlisted : ∀ (m : Memory) (a : Nat), (∀ c ∈ m, c.1 ≠ a) → readByte m a = unlistedByte a
  | [], _, _ => rfl
  | c :: m, a, h => by
    have hc : a ≠ c.1 := fun e => h c (by simp) e.symm
    rw [readByte_cons, if_neg hc]
    exact readByte_unlisted m a fun d hd => h d (by simp [hd])

/-! ### The canonical form -/

@[simp] theorem Memory.wf_nil : Memory.wf [] := ⟨List.Pairwise.nil, by simp⟩

theorem Memory.wf_cons (c : Host.Cell) (m : Memory) :
    Memory.wf (c :: m) ↔
      (∀ d ∈ m, c.1 < d.1) ∧ c.1 < Config.memSize ∧ c.2 ≠ unlistedByte c.1 ∧ Memory.wf m := by
  simp only [Memory.wf, List.pairwise_cons, List.mem_cons, forall_eq_or_imp]
  tauto

theorem readByte_consCell_same (a : Nat) (b : Byte) (m : Memory) (h : ∀ c ∈ m, a < c.1) :
    readByte (consCell a b m) a = b := by
  unfold consCell
  split
  · next e => rw [e]; exact readByte_unlisted m a fun c hc => Nat.ne_of_gt (h c hc)
  · simp [readByte_cons]

theorem readByte_consCell_other (a c : Nat) (b : Byte) (m : Memory) (h : c ≠ a) :
    readByte (consCell a b m) c = readByte m c := by
  unfold consCell
  split
  · rfl
  · simp [readByte_cons, h]

theorem consCell_wf (a : Nat) (b : Byte) (m : Memory) (hm : Memory.wf m) (ha : a < Config.memSize)
    (h : ∀ c ∈ m, a < c.1) : Memory.wf (consCell a b m) := by
  unfold consCell
  split
  · exact hm
  · next e => exact (Memory.wf_cons _ _).2 ⟨h, ha, e, hm⟩

theorem mem_consCell {a : Nat} {b : Byte} {m : Memory} {c : Host.Cell} (h : c ∈ consCell a b m) :
    c.1 = a ∨ c ∈ m := by
  unfold consCell at h
  split at h
  · exact .inr h
  · rcases List.mem_cons.1 h with rfl | h
    · exact .inl rfl
    · exact .inr h

/-! ### One byte -/

/-- Every cell after a write is the written address or an old cell. -/
theorem mem_writeByte : ∀ {m : Memory} {a : Nat} {b : Byte} {c : Host.Cell}, c ∈ writeByte m a b → c.1 = a ∨ c ∈ m
  | [], a, b, c, h => mem_consCell h
  | d :: m, a, b, c, h => by
    unfold writeByte at h
    split at h
    · exact mem_consCell h
    · split at h
      · exact (mem_consCell h).imp id (List.mem_cons_of_mem _)
      · rcases List.mem_cons.1 h with rfl | h
        · exact .inr (by simp)
        · exact (mem_writeByte h).imp id (List.mem_cons_of_mem _)

/-- A write inside memory keeps the canonical form. -/
theorem writeByte_wf : ∀ (m : Memory) (a : Nat) (b : Byte), Memory.wf m → a < Config.memSize →
    Memory.wf (writeByte m a b)
  | [], a, b, hm, ha => consCell_wf a b [] hm ha (by simp)
  | c :: m, a, b, hm, ha => by
    obtain ⟨h1, h2, h3, h4⟩ := (Memory.wf_cons c m).1 hm
    unfold writeByte
    split
    · next hlt =>
      refine consCell_wf a b (c :: m) hm ha fun d hd => ?_
      rcases List.mem_cons.1 hd with rfl | hd
      · exact hlt
      · exact Nat.lt_trans hlt (h1 d hd)
    · split
      · next e => exact consCell_wf a b m h4 ha fun d hd => e ▸ h1 d hd
      · refine (Memory.wf_cons _ _).2 ⟨fun d hd => ?_, h2, h3, writeByte_wf m a b h4 ha⟩
        rcases mem_writeByte hd with e | hd
        · omega
        · exact h1 d hd

/-- A read after a write to the same address gives the byte written. -/
theorem readByte_writeByte_same : ∀ (m : Memory) (a : Nat) (b : Byte), Memory.wf m →
    readByte (writeByte m a b) a = b
  | [], a, b, _ => readByte_consCell_same a b [] (by simp)
  | c :: m, a, b, hm => by
    obtain ⟨h1, _, _, h4⟩ := (Memory.wf_cons c m).1 hm
    unfold writeByte
    split
    · next hlt =>
      refine readByte_consCell_same a b (c :: m) fun d hd => ?_
      rcases List.mem_cons.1 hd with rfl | hd
      · exact hlt
      · exact Nat.lt_trans hlt (h1 d hd)
    · split
      · next e => exact readByte_consCell_same a b m fun d hd => e ▸ h1 d hd
      · next h => rw [readByte_cons, if_neg h]; exact readByte_writeByte_same m a b h4

/-- A write leaves every other address alone. -/
theorem readByte_writeByte_other : ∀ (m : Memory) (a c : Nat) (b : Byte), c ≠ a →
    readByte (writeByte m a b) c = readByte m c
  | [], a, c, b, h => readByte_consCell_other a c b [] h
  | d :: m, a, c, b, h => by
    unfold writeByte
    split
    · exact readByte_consCell_other a c b (d :: m) h
    · split
      · next e =>
        rw [readByte_consCell_other a c b m h, readByte_cons, if_neg (fun e' => h (e'.trans e.symm))]
      · rw [readByte_cons, readByte_cons, readByte_writeByte_other m a c b h]

/-! ### A block of bytes -/

theorem writeBlock_wf : ∀ (bs : List Byte) (m : Memory) (p : Nat), Memory.wf m → p + bs.length ≤ Config.memSize →
    Memory.wf (writeBlock m p bs)
  | [], m, p, hm, _ => hm
  | b :: bs, m, p, hm, h => by
    simp only [List.length_cons] at h
    exact writeBlock_wf bs _ (p + 1) (writeByte_wf m p b hm (by omega)) (by omega)

/-- Addresses outside the block read as before. -/
theorem readByte_writeBlock_other : ∀ (bs : List Byte) (m : Memory) (p a : Nat), a < p ∨ p + bs.length ≤ a →
    readByte (writeBlock m p bs) a = readByte m a
  | [], m, p, a, _ => rfl
  | b :: bs, m, p, a, h => by
    simp only [List.length_cons] at h
    have := readByte_writeBlock_other bs (writeByte m p b) (p + 1) a (by omega)
    rw [writeBlock, this, readByte_writeByte_other m p a b (by omega)]

/-- Address p + k of the block reads as the k-th byte written. -/
theorem readByte_writeBlock_at : ∀ (bs : List Byte) (m : Memory) (p k : Nat), Memory.wf m →
    p + bs.length ≤ Config.memSize → k < bs.length → ∀ d, readByte (writeBlock m p bs) (p + k) = bs.getD k d
  | [], _, _, _, _, _, h, _ => absurd h (by simp)
  | b :: bs, m, p, 0, hm, hp, _, d => by
    rw [writeBlock, readByte_writeBlock_other bs _ (p + 1) (p + 0) (by omega)]
    exact readByte_writeByte_same m p b hm
  | b :: bs, m, p, k + 1, hm, hp, h, d => by
    simp only [List.length_cons] at h hp
    have := readByte_writeBlock_at bs (writeByte m p b) (p + 1) k (writeByte_wf m p b hm (by omega)) (by omega)
      (by omega) d
    rw [writeBlock, show p + (k + 1) = p + 1 + k by omega, this]
    rfl

@[simp] theorem readBlock_length (m : Memory) (p n : Nat) : (readBlock m p n).length = n := by
  simp [readBlock]

theorem readBlock_getD (m : Memory) (p n k : Nat) (d : Byte) (h : k < n) :
    (readBlock m p n).getD k d = readByte m (p + k) := by
  rw [List.getD_eq_getElem _ _ (by simpa using h)]
  simp [readBlock]

theorem readBlock_getD_beyond (m : Memory) (p n k : Nat) (d : Byte) (h : n ≤ k) :
    (readBlock m p n).getD k d = d := by
  rw [List.getD_eq_default _ _ (by simpa using h)]

/-! ### The range check (R54 to R56) -/

theorem outOfRange?_none (p n : Nat) : outOfRange? p n = none ↔ n = 0 ∨ p + n ≤ 0x1000 := by
  unfold outOfRange?
  split
  · next h => simp only [reduceCtorEq, false_iff, not_or, not_le]; exact ⟨by omega, h.2⟩
  · next h => simp only [true_iff]; simp only [Config.memSize, not_and, not_lt] at h; omega

/-- When the check fails it gives the lowest address above 0xFFF among p .. p + n - 1. -/
theorem outOfRange?_some {p n : Nat} {a : Word} (hp : p < 65536) (h : outOfRange? p n = some a) :
    a.toNat = max p 0x1000 ∧ 0 < n ∧ 0x1000 < p + n := by
  unfold outOfRange? at h
  split at h
  · next hc =>
    obtain rfl := Option.some.inj h
    refine ⟨?_, hc.1, hc.2⟩
    rw [BitVec.toNat_ofNat]
    exact Nat.mod_eq_of_lt (by simp only [Config.memSize]; omega)
  · cases h

/-- One byte is out of range exactly when its address is above 0xFFF, and the fault names that address (R54, R55). -/
theorem outOfRange?_one (a : Nat) : outOfRange? a 1 = if 0xFFF < a then some (BitVec.ofNat 16 a) else none := by
  unfold outOfRange?
  by_cases h : 0xFFF < a
  · rw [if_pos ⟨by omega, by simp only [Config.memSize]; omega⟩, if_pos h, Nat.max_eq_left (by simp only [Config.memSize]; omega)]
  · rw [if_neg (by simp only [Config.memSize]; omega), if_neg h]

theorem indexBase_lt (s : State) : indexBase s < 65536 := s.index.isLt

end Sys2Proof.Machine
end

