-- ==== Sys2Proof/Laws/Ops.lean ====
section
/-! SUPPORT. What the shared operations on the call stack, the keys, the operands and the flags can answer. -/

namespace Sys2Proof.Machine

/-! ### Call stack -/

/-- A push succeeds exactly when an entry is free, and then writes that entry and counts it (R103). -/
theorem State.push?_some {s t : State} {w : Word} (h : s.push? w = some t) :
    s.sp.val < 16 ∧ t.sp.val = s.sp.val + 1 ∧
      (∀ j : Fin 16, t.stack[j] = if j.val = s.sp.val then w else s.stack[j]) ∧
      t = { s with sp := t.sp, stack := t.stack } := by
  unfold State.push? at h
  split at h
  · next hlt =>
    obtain rfl := Option.some.inj h
    refine ⟨hlt, rfl, fun j => ?_, rfl⟩
    simp only [Fin.getElem_fin, Vector.getElem_set, eq_comm]
  · cases h

theorem State.push?_none (s : State) (w : Word) : s.push? w = none ↔ s.sp.val = 16 := by
  have := s.sp.isLt
  unfold State.push?
  split <;> simp <;> omega

/-- A pop succeeds exactly when an entry is in use, and then moves the last one to pc (R104). -/
theorem State.pop?_some {s t : State} (h : s.pop? = some t) :
    ∃ j : Fin 16, s.sp.val = j.val + 1 ∧ t.sp.val = j.val ∧ t.pc = s.stack[j] ∧
      t = { s with sp := t.sp, pc := t.pc } := by
  have hs := s.sp.isLt
  unfold State.pop? at h
  split at h
  · next hlt =>
    obtain rfl := Option.some.inj h
    exact ⟨⟨s.sp.val - 1, by omega⟩, by simp only; omega, rfl, rfl, rfl⟩
  · cases h

theorem State.pop?_none (s : State) : s.pop? = none ↔ s.sp.val = 0 := by
  unfold State.pop?
  split <;> simp <;> omega

/-! ### Keys -/

/-- The key found is pressed and every lower one is not (R185). -/
theorem State.lowestKey?_some (s : State) (k : Fin 16) :
    s.lowestKey? = some k ↔ s.key[k] = true ∧ ∀ j : Fin 16, j < k → s.key[j] = false := by
  unfold State.lowestKey?
  rw [List.find?_eq_some_iff_getElem]
  constructor
  · rintro ⟨hk, i, hi, e, hlow⟩
    have hi' : i < 16 := by simpa using hi
    have e' : k = ⟨i, hi'⟩ := by simpa [List.getElem_finRange] using e.symm
    subst e'
    refine ⟨hk, fun j hj => ?_⟩
    have := hlow j.val hj
    simpa [List.getElem_finRange] using this
  · rintro ⟨hk, hlow⟩
    refine ⟨hk, k.val, by simp, by simp [List.getElem_finRange], fun j hj => ?_⟩
    have := hlow ⟨j, by omega⟩ hj
    simpa [List.getElem_finRange] using this

theorem State.lowestKey?_none (s : State) : s.lowestKey? = none ↔ ∀ k : Fin 16, s.key[k] = false := by
  simp [State.lowestKey?]

theorem keyNumber?_some (a : Byte) (k : Fin 16) : keyNumber? a = some k ↔ a.toNat = k.val := by
  unfold keyNumber?
  split
  · simp [Fin.ext_iff]
  · have := k.isLt
    simp only [reduceCtorEq, false_iff]; omega

theorem keyNumber?_none (a : Byte) : keyNumber? a = none ↔ 15 < a.toNat := by
  unfold keyNumber?
  split <;> simp <;> omega

/-! ### Operands -/

@[simp] theorem absolute_toNat (nnn : Imm12) : (absolute nnn).toNat = nnn.toNat := by
  have := nnn.isLt
  simp only [absolute, BitVec.truncate_eq_setWidth, BitVec.toNat_setWidth]
  omega

theorem absolutePlusV0_toNat (s : State) (nnn : Imm12) :
    (absolutePlusV0 s nnn).toNat = nnn.toNat + s.v[(0 : Reg)].toNat := by
  have h1 := nnn.isLt
  have h2 := (s.getV 0).isLt
  simp only [absolutePlusV0, BitVec.toNat_add, absolute_toNat, BitVec.truncate_eq_setWidth, BitVec.toNat_setWidth]
  rw [Nat.mod_eq_of_lt (a := (s.getV 0).toNat) (by omega), Nat.mod_eq_of_lt (by omega)]
  rfl

theorem indexPlus_toNat (s : State) (x : Reg) :
    (indexPlus s x).toNat = (s.index.toNat + s.v[x].toNat) % 65536 := by
  have h2 := (s.getV x).isLt
  simp only [indexPlus, BitVec.toNat_add, BitVec.truncate_eq_setWidth, BitVec.toNat_setWidth]
  rw [Nat.mod_eq_of_lt (a := (s.getV x).toNat) (by omega)]
  rfl

theorem glyphAddress_toNat (a : Byte) : (glyphAddress a).toNat = 0x050 + 5 * (a.toNat % 16) := by
  have h : (a &&& 0xF).toNat = a.toNat % 16 := by
    rw [BitVec.toNat_and]; exact Nat.and_two_pow_sub_one_eq_mod a.toNat 4
  simp only [glyphAddress, Config.fontBase, Config.glyphBytes, BitVec.toNat_ofNat, h]
  omega

@[simp] theorem decimalDigits_length (a : Byte) : (decimalDigits a).length = 3 := rfl

theorem decimalDigits_toNat (a : Byte) :
    (decimalDigits a).map BitVec.toNat = [a.toNat / 100, a.toNat / 10 % 10, a.toNat % 10] := by
  have := a.isLt
  simp only [decimalDigits, List.map_cons, List.map_nil, BitVec.toNat_ofNat]
  congr 1
  · omega
  · congr 1
    · omega
    · congr 1; omega

/-! ### Flags: each is 0 or 1, by its condition -/

theorem flagOf_eq (c : Bool) : flagOf c = if c then 1 else 0 := rfl

theorem carryFlag_eq (a b : Byte) : carryFlag a b = if 255 < a.toNat + b.toNat then 1 else 0 := by
  simp [carryFlag, flagOf]

theorem notBorrowFlag_eq (a b : Byte) : notBorrowFlag a b = if b.toNat ≤ a.toNat then 1 else 0 := by
  simp [notBorrowFlag, flagOf]

theorem shiftedOutRight_toNat (a : Byte) : (shiftedOutRight a).toNat = a.toNat % 2 := by
  rw [shiftedOutRight, BitVec.toNat_and]; exact Nat.and_one_is_mod _

theorem shiftedOutLeft_toNat (a : Byte) : (shiftedOutLeft a).toNat = a.toNat / 128 := by
  have := a.isLt
  rw [shiftedOutLeft, BitVec.toNat_and, BitVec.toNat_ushiftRight, Nat.shiftRight_eq_div_pow]
  refine (Nat.and_one_is_mod _).trans ?_
  omega

end Sys2Proof.Machine
end

