-- ==== Sys2Proof/Laws/Display.lean ====
section
/-! SUPPORT. The sprite masks pixel by pixel: what `blit` and `collides` say about one pixel, and that the framebuffer
is its pixels. -/

namespace Sys2Proof.Machine

/-- A pixel on the screen is a bit of its row, the leftmost the most significant. -/
theorem pixel_eq (f : Framebuffer) (px : Nat) (py : Fin 32) : pixel f px py.val = (f[py]).getMsbD px := by
  simp [pixel]

/-- Two framebuffers that agree on every pixel of the screen are equal. -/
theorem framebuffer_ext {f g : Framebuffer}
    (h : ∀ px py, px < 64 → py < 32 → pixel f px py = pixel g px py) : f = g := by
  apply Vector.ext
  intro py hy
  apply BitVec.eq_of_getMsbD_eq
  intro px hx
  have := h px py hx hy
  rw [pixel_eq f px ⟨py, hy⟩, pixel_eq g px ⟨py, hy⟩] at this
  exact this

/-- Column px of a sprite row drawn at column x0 is bit 7 - (px - x0) of the byte, and nothing outside its 8 columns
(R162, R163). -/
theorem spriteMask_getMsbD (x0 : Nat) (b : Byte) (px : Nat) (hp : px < 64) :
    (spriteMask x0 b).getMsbD px = (decide (x0 ≤ px ∧ px < x0 + 8) && b.getLsbD (7 - (px - x0))) := by
  unfold spriteMask
  rw [BitVec.getMsbD, BitVec.getLsbD_ushiftRight, BitVec.getLsbD_shiftLeft]
  simp only [hp, decide_true, Bool.true_and, BitVec.truncate_eq_setWidth, BitVec.getLsbD_setWidth]
  by_cases h1 : x0 ≤ px
  · by_cases h2 : px < x0 + 8
    · have e : x0 + (64 - 1 - px) - 56 = 7 - (px - x0) := by omega
      simp [h1, h2, e, show x0 + (64 - 1 - px) < 64 by omega, show ¬ x0 + (64 - 1 - px) < 56 by omega,
        show 7 - (px - x0) < 64 by omega]
    · simp [h2, show x0 + (64 - 1 - px) < 56 by omega]
  · simp [h1, show ¬ x0 + (64 - 1 - px) < 64 by omega]

/-- Pixel px of the mask of screen row py is the sprite's bit there. -/
theorem rowMask_getMsbD (x0 y0 : Nat) (rows : List Byte) (px py : Nat) (hp : px < 64) :
    (rowMask x0 y0 rows py).getMsbD px = spriteBit x0 y0 rows px py := by
  unfold rowMask spriteBit
  by_cases hy : y0 ≤ py
  · by_cases hr : py < y0 + rows.length
    · rw [if_pos hy, spriteMask_getMsbD x0 _ px hp]
      simp [hy, hr]
    · rw [if_pos hy, List.getD_eq_default _ _ (by omega), spriteMask_getMsbD x0 _ px hp]
      simp [hr]
  · rw [if_neg hy]
    simp [hy]

/-- XOR compositing, pixel by pixel (R164). -/
theorem pixel_blit (f : Framebuffer) (x0 y0 : Nat) (rows : List Byte) (px py : Nat) (hp : px < 64) (hy : py < 32) :
    pixel (blit f x0 y0 rows) px py = (pixel f px py ^^ spriteBit x0 y0 rows px py) := by
  have h1 := pixel_eq (blit f x0 y0 rows) px ⟨py, hy⟩
  have h2 := pixel_eq f px ⟨py, hy⟩
  simp only at h1 h2
  rw [h1, h2, ← rowMask_getMsbD x0 y0 rows px py hp]
  simp [blit, BitVec.getMsbD_xor]

/-- The blank row is unlit everywhere. -/
theorem zeroRow_getMsbD (px : Nat) : (0 : PixelRow).getMsbD px = false := BitVec.getMsbD_zero

/-- A collision is a sprite bit on a lit pixel of the screen (R164). -/
theorem collides_iff (f : Framebuffer) (x0 y0 : Nat) (rows : List Byte) :
    collides f x0 y0 rows = true ↔
      ∃ px py, px < 64 ∧ py < 32 ∧ pixel f px py = true ∧ spriteBit x0 y0 rows px py = true := by
  unfold collides
  simp only [List.any_eq_true, List.mem_finRange, true_and, bne_iff_ne, ne_eq]
  constructor
  · rintro ⟨py, h⟩
    by_contra hn
    apply h
    apply BitVec.eq_of_getMsbD_eq
    intro px hx
    rw [BitVec.getMsbD_and, rowMask_getMsbD x0 y0 rows px py.val hx]
    have := pixel_eq f px py
    by_contra hc
    rw [zeroRow_getMsbD, Bool.not_eq_false, Bool.and_eq_true, ← this] at hc
    exact hn ⟨px, py.val, hx, py.isLt, hc⟩
  · rintro ⟨px, py, hx, hy, h1, h2⟩
    refine ⟨⟨py, hy⟩, fun hz => ?_⟩
    have hb := congrArg (fun r : PixelRow => r.getMsbD px) hz
    have := pixel_eq f px ⟨py, hy⟩
    simp only [BitVec.getMsbD_and, zeroRow_getMsbD] at hb
    rw [rowMask_getMsbD x0 y0 rows px py hx, h2, ← this, h1] at hb
    exact absurd hb (by decide)

end Sys2Proof.Machine
end

