-- ==== Sys2Proof/Laws/Frames.lean ====
section
/-! SUPPORT. The memory and draw meanings when their addresses are in range, and the frames of the register updates:
only the registers written change. -/

namespace Sys2Proof.Machine

/-- A store whose bytes all lie in memory happens (R54 to R56). -/
theorem storeAtIndex_inRange (s : State) (bs : List Byte) (h : indexBase s + bs.length ≤ 0x1000) :
    storeAtIndex bs s = .next (s.setMem (writeBlock s.mem (indexBase s) bs)) := by
  simp only [storeAtIndex, (outOfRange?_none _ _).2 (.inr h)]

/-- A block load whose bytes all lie in memory happens (R146). -/
theorem execLdVxMem_inRange (s : State) (x : Reg) (h : indexBase s + (x.val + 1) ≤ 0x1000) :
    execLdVxMem x s = .next (s.loadRegs (readBlock s.mem (indexBase s) (x.val + 1))) := by
  simp only [execLdVxMem, (outOfRange?_none _ _).2 (.inr h)]

/-- A draw of height 0, or whose bytes all lie in memory, happens (R160, R165). -/
theorem execDrwVxVyN_inRange (s : State) (x y : Reg) (n : BitVec 4)
    (h : n.toNat = 0 ∨ indexBase s + n.toNat ≤ 0x1000) :
    execDrwVxVyN x y n s =
      .next ((s.setFb (blit s.fb (s.v[x].toNat % 64) (s.v[y].toNat % 32)
          (readBlock s.mem (indexBase s) n.toNat))).setFlag
        (flagOf (collides s.fb (s.v[x].toNat % 64) (s.v[y].toNat % 32)
          (readBlock s.mem (indexBase s) n.toNat)))) := by
  simp only [execDrwVxVyN, (outOfRange?_none _ _).2 h]
  rfl

/-- A draw changes the screen and the registers, of those only VF. -/
theorem State.setFb_setFlag_eq (s : State) (f : Framebuffer) (b : Byte) :
    (s.setFb f).setFlag b = { s with v := s.v.set Config.flagReg b, fb := f } := rfl

theorem State.setV_onlyRegs (s : State) (x : Reg) (b : Byte) : OnlyRegs s (s.setV x b) [x] :=
  ⟨rfl, fun r hr => s.setV_other x r b (by simpa using hr)⟩

/-- Result, then flag. -/
theorem State.setV_setFlag_onlyRegs (s : State) (x : Reg) (b c : Byte) :
    OnlyRegs s ((s.setV x b).setFlag c) [x, 0xF] :=
  ⟨rfl, fun r hr => by
    simp at hr
    rw [State.setFlag_get, if_neg hr.2, s.setV_other x r b hr.1]⟩

/-- Flag, then result. -/
theorem State.setFlag_setV_onlyRegs (s : State) (x : Reg) (b c : Byte) :
    OnlyRegs s ((s.setFlag c).setV x b) [x, 0xF] :=
  ⟨rfl, fun r hr => by
    simp at hr
    rw [State.setV_get, if_neg hr.1, State.setFlag_get, if_neg hr.2]⟩

end Sys2Proof.Machine
end

