-- ==== Sys2Proof/Laws/Meanings.lean ====
section
/-! SUPPORT. The meanings that end in one of two ways: what each can answer, its conditions included. The other
meanings are one update each and are unfolded by name. -/

namespace Sys2Proof.Machine

/-- `s.raise` written out. -/
theorem State.raise_eq (s : State) (r : FaultReason) (i : Word) :
    s.raise r i = { s with fault := some ⟨r, s.pc - 2, i⟩ } := rfl

theorem storeAtIndex_next {bs : List Byte} {s t : State} (h : storeAtIndex bs s = .next t) :
    (∃ a, outOfRange? (indexBase s) bs.length = some a ∧ t = s.raise .memoryOutOfRange a) ∨
    (outOfRange? (indexBase s) bs.length = none ∧ t = s.setMem (writeBlock s.mem (indexBase s) bs)) := by
  unfold storeAtIndex at h
  split at h <;> injection h with h
  · next a e => exact .inl ⟨a, e, h.symm⟩
  · next e => exact .inr ⟨e, h.symm⟩

theorem execCall_next {nnn : Imm12} {s t : State} (h : execCall nnn s = .next t) :
    (s.sp.val = 16 ∧ t = s.raise .stackOverflow 0) ∨
    (∃ u, s.push? s.pc = some u ∧ t = u.setPc (absolute nnn)) := by
  unfold execCall at h
  split at h <;> injection h with h
  · next u e => exact .inr ⟨u, e, h.symm⟩
  · next e => exact .inl ⟨(s.push?_none _).1 e, h.symm⟩

theorem execRet_next {u : BitVec 4} {s t : State} (h : execRet u s = .next t) :
    (s.sp.val = 0 ∧ t = s.raise .stackUnderflow 0) ∨ s.pop? = some t := by
  unfold execRet at h
  split at h <;> injection h with h
  · next u e => exact .inr (h ▸ e)
  · next e => exact .inl ⟨s.pop?_none.1 e, h.symm⟩

theorem execLdVxMem_next {x : Reg} {s t : State} (h : execLdVxMem x s = .next t) :
    (∃ a, outOfRange? (indexBase s) (x.val + 1) = some a ∧ t = s.raise .memoryOutOfRange a) ∨
    (outOfRange? (indexBase s) (x.val + 1) = none ∧
      t = s.loadRegs (readBlock s.mem (indexBase s) (x.val + 1))) := by
  unfold execLdVxMem at h
  split at h <;> injection h with h
  · next a e => exact .inl ⟨a, e, h.symm⟩
  · next e => exact .inr ⟨e, h.symm⟩

theorem execDrwVxVyN_next {x y : Reg} {n : BitVec 4} {s t : State} (h : execDrwVxVyN x y n s = .next t) :
    (∃ a, outOfRange? (indexBase s) n.toNat = some a ∧ t = s.raise .memoryOutOfRange a) ∨
    (outOfRange? (indexBase s) n.toNat = none ∧
      t = (s.setFb (blit s.fb (s.v[x].toNat % 64) (s.v[y].toNat % 32)
          (readBlock s.mem (indexBase s) n.toNat))).setFlag
        (flagOf (collides s.fb (s.v[x].toNat % 64) (s.v[y].toNat % 32)
          (readBlock s.mem (indexBase s) n.toNat)))) := by
  unfold execDrwVxVyN at h
  split at h <;> injection h with h
  · next a e => exact .inl ⟨a, e, h.symm⟩
  · next e => exact .inr ⟨e, h.symm⟩

/-- The shape of a draw's answer, for frames: what the new screen and the flag are is left open. -/
theorem execDrwVxVyN_shape {x y : Reg} {n : BitVec 4} {s t : State} (h : execDrwVxVyN x y n s = .next t) :
    (∃ a, outOfRange? (indexBase s) n.toNat = some a ∧ t = s.raise .memoryOutOfRange a) ∨
    (outOfRange? (indexBase s) n.toNat = none ∧ ∃ f c, t = (s.setFb f).setFlag (flagOf c)) :=
  (execDrwVxVyN_next h).imp id fun ⟨h, e⟩ => ⟨h, _, _, e⟩

theorem execSkpVx_next {x : Reg} {s t : State} (h : execSkpVx x s = .next t) :
    (15 < s.v[x].toNat ∧ t = s.raise .keyIndexOutOfRange 0) ∨
    (∃ k : Fin 16, s.v[x].toNat = k.val ∧ t = s.skipIf s.key[k]) := by
  unfold execSkpVx at h
  split at h <;> injection h with h
  · next k e => exact .inr ⟨k, (keyNumber?_some _ _).1 e, h.symm⟩
  · next e => exact .inl ⟨(keyNumber?_none _).1 e, h.symm⟩

theorem execSknpVx_next {x : Reg} {s t : State} (h : execSknpVx x s = .next t) :
    (15 < s.v[x].toNat ∧ t = s.raise .keyIndexOutOfRange 0) ∨
    (∃ k : Fin 16, s.v[x].toNat = k.val ∧ t = s.skipIf (!s.key[k])) := by
  unfold execSknpVx at h
  split at h <;> injection h with h
  · next k e => exact .inr ⟨k, (keyNumber?_some _ _).1 e, h.symm⟩
  · next e => exact .inl ⟨(keyNumber?_none _).1 e, h.symm⟩

theorem execLdVxK_next {x : Reg} {s t : State} (h : execLdVxK x s = .next t) :
    (s.lowestKey? = none ∧ t = s.setPc (s.pc - 2)) ∨
    (∃ k : Fin 16, s.lowestKey? = some k ∧ t = s.setV x (BitVec.ofNat 8 k.val)) := by
  unfold execLdVxK at h
  split at h <;> injection h with h
  · next k e => exact .inr ⟨k, e, h.symm⟩
  · next e => exact .inl ⟨e, h.symm⟩

end Sys2Proof.Machine
end

