-- ==== Sys2Proof/Laws/PerInstr.lean ====
section
/-! SUPPORT. Per-instruction facts about the instruction as syntax. Family EncodesInRow: with every operand at every
value, the encoded word matches the mask and pattern of the instruction's own row of the opcode map (30_encoding.md
R77). -/

namespace Sys2Proof

/-! ### What a row's mask leaves of a built word -/

/-- The top nibble of format NNN. -/
theorem formatNNN_top (op : BitVec 4) (nnn : Imm12) : formatNNN op nnn &&& 0xF000 = formatNNN op 0 := by
  apply BitVec.eq_of_getLsbD_eq; intro k hk
  rw [BitVec.getLsbD_and, getLsbD_formatNNN, getLsbD_formatNNN]
  interval_cases k <;> simp

/-- The top nibble of format XKK. -/
theorem formatXKK_top (op x : BitVec 4) (kk : Byte) : formatXKK op x kk &&& 0xF000 = formatXKK op 0 0 := by
  apply BitVec.eq_of_getLsbD_eq; intro k hk
  rw [BitVec.getLsbD_and, getLsbD_formatXKK, getLsbD_formatXKK]
  interval_cases k <;> simp

/-- The top nibble and low byte of format XKK. -/
theorem formatXKK_topLow (op x : BitVec 4) (kk : Byte) : formatXKK op x kk &&& 0xF0FF = formatXKK op 0 kk := by
  apply BitVec.eq_of_getLsbD_eq; intro k hk
  rw [BitVec.getLsbD_and, getLsbD_formatXKK, getLsbD_formatXKK]
  interval_cases k <;> simp

/-- The top nibble of format XYN. -/
theorem formatXYN_top (op x y n : BitVec 4) : formatXYN op x y n &&& 0xF000 = formatXYN op 0 0 0 := by
  apply BitVec.eq_of_getLsbD_eq; intro k hk
  rw [BitVec.getLsbD_and, getLsbD_formatXYN, getLsbD_formatXYN]
  interval_cases k <;> simp

/-- The top and low nibbles of format XYN. -/
theorem formatXYN_topLow (op x y n : BitVec 4) : formatXYN op x y n &&& 0xF00F = formatXYN op 0 0 n := by
  apply BitVec.eq_of_getLsbD_eq; intro k hk
  rw [BitVec.getLsbD_and, getLsbD_formatXYN, getLsbD_formatXYN]
  interval_cases k <;> simp

end Sys2Proof

namespace Sys2Proof.Laws.EncodesInRow

/-- The word of the instruction, under its row's mask, is the row's pattern. -/
def Statement (i : Instr) : Prop := encode i &&& i.row.mask = i.row.pattern

theorem sys (nnn : Imm12) : Statement (.sys nnn) :=
  formatNNN_top _ _

theorem cls (u : BitVec 4) : Statement (.cls u) :=
  formatXKK_topLow _ _ _

theorem ret (u : BitVec 4) : Statement (.ret u) :=
  formatXKK_topLow _ _ _

theorem jp (nnn : Imm12) : Statement (.jp nnn) :=
  formatNNN_top _ _

theorem call (nnn : Imm12) : Statement (.call nnn) :=
  formatNNN_top _ _

theorem seVxKk (x : Reg) (kk : Byte) : Statement (.seVxKk x kk) :=
  formatXKK_top _ _ _

theorem sneVxKk (x : Reg) (kk : Byte) : Statement (.sneVxKk x kk) :=
  formatXKK_top _ _ _

theorem seVxVy (x : Reg) (y : Reg) (u : BitVec 4) : Statement (.seVxVy x y u) :=
  formatXYN_top _ _ _ _

theorem ldVxKk (x : Reg) (kk : Byte) : Statement (.ldVxKk x kk) :=
  formatXKK_top _ _ _

theorem addVxKk (x : Reg) (kk : Byte) : Statement (.addVxKk x kk) :=
  formatXKK_top _ _ _

theorem ldVxVy (x : Reg) (y : Reg) : Statement (.ldVxVy x y) :=
  formatXYN_topLow _ _ _ _

theorem orVxVy (x : Reg) (y : Reg) : Statement (.orVxVy x y) :=
  formatXYN_topLow _ _ _ _

theorem andVxVy (x : Reg) (y : Reg) : Statement (.andVxVy x y) :=
  formatXYN_topLow _ _ _ _

theorem xorVxVy (x : Reg) (y : Reg) : Statement (.xorVxVy x y) :=
  formatXYN_topLow _ _ _ _

theorem addVxVy (x : Reg) (y : Reg) : Statement (.addVxVy x y) :=
  formatXYN_topLow _ _ _ _

theorem subVxVy (x : Reg) (y : Reg) : Statement (.subVxVy x y) :=
  formatXYN_topLow _ _ _ _

theorem shrVx (x : Reg) (y : Reg) : Statement (.shrVx x y) :=
  formatXYN_topLow _ _ _ _

theorem subnVxVy (x : Reg) (y : Reg) : Statement (.subnVxVy x y) :=
  formatXYN_topLow _ _ _ _

theorem shlVx (x : Reg) (y : Reg) : Statement (.shlVx x y) :=
  formatXYN_topLow _ _ _ _

theorem sneVxVy (x : Reg) (y : Reg) (u : BitVec 4) : Statement (.sneVxVy x y u) :=
  formatXYN_top _ _ _ _

theorem ldINnn (nnn : Imm12) : Statement (.ldINnn nnn) :=
  formatNNN_top _ _

theorem jpV0Nnn (nnn : Imm12) : Statement (.jpV0Nnn nnn) :=
  formatNNN_top _ _

theorem rndVxKk (x : Reg) (kk : Byte) : Statement (.rndVxKk x kk) :=
  formatXKK_top _ _ _

theorem drwVxVyN (x : Reg) (y : Reg) (n : BitVec 4) : Statement (.drwVxVyN x y n) :=
  formatXYN_top _ _ _ _

theorem skpVx (x : Reg) : Statement (.skpVx x) :=
  formatXKK_topLow _ _ _

theorem sknpVx (x : Reg) : Statement (.sknpVx x) :=
  formatXKK_topLow _ _ _

theorem ldVxDt (x : Reg) : Statement (.ldVxDt x) :=
  formatXKK_topLow _ _ _

theorem ldVxK (x : Reg) : Statement (.ldVxK x) :=
  formatXKK_topLow _ _ _

theorem ldDtVx (x : Reg) : Statement (.ldDtVx x) :=
  formatXKK_topLow _ _ _

theorem ldStVx (x : Reg) : Statement (.ldStVx x) :=
  formatXKK_topLow _ _ _

theorem addIVx (x : Reg) : Statement (.addIVx x) :=
  formatXKK_topLow _ _ _

theorem ldFVx (x : Reg) : Statement (.ldFVx x) :=
  formatXKK_topLow _ _ _

theorem ldBVx (x : Reg) : Statement (.ldBVx x) :=
  formatXKK_topLow _ _ _

theorem ldMemVx (x : Reg) : Statement (.ldMemVx x) :=
  formatXKK_topLow _ _ _

theorem ldVxMem (x : Reg) : Statement (.ldVxMem x) :=
  formatXKK_topLow _ _ _

theorem nop8 (u : Byte) (n : BitVec 4) : Statement (.nop8 u n) := by
  rw [Statement, encode_nop8]
  exact formatXYN_top _ _ _ _

theorem nopE (u : BitVec 4) (kk : Byte) : Statement (.nopE u kk) :=
  formatXKK_top _ _ _

theorem nopF (u : BitVec 4) (kk : Byte) : Statement (.nopF u kk) :=
  formatXKK_top _ _ _

end Sys2Proof.Laws.EncodesInRow
end

