-- ==== Sys2Proof/Laws/Step.lean ====
section
/-! SUPPORT. What a step can do, once: halted, stopped by a fetch check, or the execute step of the decoded word. -/

namespace Sys2Proof.Machine

theorem fetchFault?_none (a : Word) : fetchFault? a = none ↔ a.toNat % 2 = 0 ∧ a.toNat ≤ 0xFFE := by
  unfold fetchFault?
  split
  · simp; omega
  · split
    · simp; omega
    · simp; omega

theorem fetchFault?_some {a : Word} {r : FaultReason} {i : Word} (h : fetchFault? a = some (r, i)) :
    (a.toNat % 2 = 1 ∧ r = .misalignedFetch ∧ i = 0) ∨
    (a.toNat % 2 = 0 ∧ 0xFFE < a.toNat ∧ r = .memoryOutOfRange ∧ i = a) := by
  unfold fetchFault? at h
  split at h
  · next e => cases h; exact .inl ⟨e, rfl, rfl⟩
  · next e =>
    split at h
    · next e' => cases h; exact .inr ⟨by omega, e', rfl, rfl⟩
    · cases h

theorem canFetch_iff (s : State) : CanFetch s ↔ s.fault = none ∧ fetchFault? s.pc = none := by
  rw [fetchFault?_none]; rfl

/-- When an instruction can be fetched, a step is its execution. -/
theorem step_of_canFetch {s : State} (h : CanFetch s) :
    step s = exec (decodeWord (fetchWord s.mem s.pc)) s.fetched := by
  obtain ⟨h1, h2⟩ := (canFetch_iff s).1 h
  simp [step, h1, h2, State.fetched]

/-- The three things a step can do. -/
theorem step_next {s t : State} (h : step s = .next t) :
    (∃ r, s.fault = some r ∧ t = s) ∨
    (s.fault = none ∧ ∃ r i, fetchFault? s.pc = some (r, i) ∧ t = s.takeFault r s.pc i) ∨
    (CanFetch s ∧ exec (decodeWord (fetchWord s.mem s.pc)) s.fetched = .next t) := by
  cases hf : s.fault with
  | some r => simp [step, hf] at h; exact .inl ⟨r, rfl, h.symm⟩
  | none =>
    cases hp : fetchFault? s.pc with
    | some q =>
      obtain ⟨r, i⟩ := q
      simp [step, hf, hp] at h
      exact .inr (.inl ⟨rfl, r, i, rfl, h.symm⟩)
    | none =>
      have hc := (canFetch_iff s).2 ⟨hf, hp⟩
      exact .inr (.inr ⟨hc, step_of_canFetch hc ▸ h⟩)

@[simp] theorem State.fetched_opcode (s : State) : s.fetched.opcode = fetchWord s.mem s.pc := rfl
@[simp] theorem State.fetched_pc (s : State) : s.fetched.pc = s.pc + 2 := rfl
theorem State.fetched_eq (s : State) :
    s.fetched = { s with opcode := fetchWord s.mem s.pc, pc := s.pc + 2 } := rfl

/-- Reading back a stored instruction word (R57). -/
theorem fetchWord_storeWord (m : Memory) (a w : Word) (hm : Memory.wf m) (ha : a.toNat ≤ 0xFFE) :
    fetchWord (storeWord m a w) a = w := by
  have hl : a.toNat + (bytesOfWord w).length ≤ Config.memSize := by
    simp only [bytesOfWord, List.length_cons, List.length_nil, Config.memSize]; omega
  have h0 := readByte_writeBlock_at (bytesOfWord w) m a.toNat 0 hm hl (by simp [bytesOfWord]) 0
  have h1 := readByte_writeBlock_at (bytesOfWord w) m a.toNat 1 hm hl (by simp [bytesOfWord]) 0
  rw [Nat.add_zero] at h0
  rw [fetchWord, storeWord, h0, h1]
  apply BitVec.eq_of_getLsbD_eq; intro k hk
  refine (BitVec.getLsbD_append (x := w.extractLsb' 8 8) (y := w.extractLsb' 0 8)).trans ?_
  by_cases h : k < 8
  · simp [h]
  · simp [h, show k - 8 < 8 by omega, show 8 + (k - 8) = k by omega]

/-- `withFetchWord` does what it is for: the next step runs exactly that instruction. -/
theorem step_withFetchWord (s : State) (w : Nat) (hm : Memory.wf s.mem) :
    step (s.withFetchWord 16 w) =
      exec (decodeWord (BitVec.ofNat 16 w)) (s.withFetchWord 16 w).fetched := by
  have hp : fetchFault? (placeAt s) = none := by
    unfold placeAt
    split
    · next h => exact Option.isNone_iff_eq_none.1 h
    · decide
  have hc : CanFetch (s.withFetchWord 16 w) := (canFetch_iff _).2 ⟨rfl, hp⟩
  rw [step_of_canFetch hc]
  congr 2
  refine (fetchWord_storeWord s.mem (placeAt s) _ hm ((fetchFault?_none _).1 hp).2).trans ?_
  apply BitVec.eq_of_toNat_eq
  simp only [BitVec.toNat_ofNat]
  omega

end Sys2Proof.Machine
end

