-- ==== Sys2Proof/Tests/Slice0.lean ====
section
/-! SUPPORT. The model's own tests. The expected values are those of spec/95_test_vectors.md (the vector is named in each
comment) and the words are written from the encodings of 30_encoding.md R77. Then one witness for the hypotheses of each
statement that has any. -/

namespace Sys2Proof.Tests

open Sys2Proof.Machine

/-! ### Helpers -/

/-- The outcome is a next state of which c holds. -/
def after (o : Host.Outcome State Fault Refusal) (c : State → Bool) : Bool :=
  match o with
  | .next t => c t
  | .fault _ => false
  | .refused _ => false

/-- s with some registers set. -/
def withV (s : State) (l : List (Reg × Byte)) : State := l.foldl (fun t c => t.setV c.1 c.2) s

/-- s with bytes stored from address a on. -/
def withBytes (s : State) (a : Nat) (bs : List Byte) : State := s.setMem (writeBlock s.mem a bs)

/-- s about to run the word w at address a. -/
def atWord (a w : Word) (s : State) : State := { s with pc := a, mem := storeWord s.mem a w }

/-- One cycle that runs the word w at 0x200 from registers l, otherwise from reset. -/
def cycleOf (w : Word) (l : List (Reg × Byte)) (c : State → Bool) : Bool :=
  after (step (atWord 0x200 w (withV State.reset l))) c

/-- The word stands for the instruction, both ways. -/
def stands (w : Word) (i : Instr) : Bool := decodeWord w == i && encode i == w

/-- The reset screen with one pixel lit. -/
def lit (px : Nat) (py : Fin 32) : Framebuffer := State.reset.fb.set py.val (1 <<< (63 - px))

/-! ### Ill-formed terms are refused, one for each check -/

theorem test_wf_sys_refuses_selectors : (Instr.sys 0x3E0).wf = false ∧ (Instr.sys 0x0EE).wf = false := by decide
theorem test_wf_nop8_refuses_selector : (Instr.nop8 0x12 0x4).wf = false := by decide
theorem test_wf_nopE_refuses_selector : (Instr.nopE 0x2 0x9E).wf = false := by decide
theorem test_wf_nopF_refuses_selector : (Instr.nopF 0x2 0x55).wf = false := by decide
theorem test_wf_accepts :
    (Instr.sys 0x3E1).wf ∧ (Instr.nop8 0x12 0xF).wf ∧ (Instr.nopE 0x2 0x9F).wf ∧ (Instr.nopF 0x2 0x54).wf ∧
    (Instr.drwVxVyN 0 1 0).wf := by decide

/-! ### Decoding, one word for every constructor, from the patterns of R77 -/

theorem test_words_family_0 :
    stands 0b0000_0001_0010_0011 (.sys 0x123) ∧ stands 0b0000_0000_1110_0000 (.cls 0x0) ∧
    stands 0b0000_0000_1110_1110 (.ret 0x0) ∧ stands 0b0000_0001_1110_1110 (.ret 0x1) ∧
    stands 0b0000_0000_0000_0000 (.sys 0x000) := by decide

theorem test_words_jumps_and_skips :
    stands 0b0001_1010_1011_1100 (.jp 0xABC) ∧ stands 0b0010_0010_0001_0000 (.call 0x210) ∧
    stands 0b0011_0011_0010_1010 (.seVxKk 0x3 0x2A) ∧ stands 0b0100_0011_0010_1010 (.sneVxKk 0x3 0x2A) ∧
    stands 0b0101_0001_0010_0101 (.seVxVy 0x1 0x2 0x5) ∧ stands 0b1001_0001_0010_0000 (.sneVxVy 0x1 0x2 0x0) ∧
    stands 0b1011_0011_0000_0000 (.jpV0Nnn 0x300) := by decide

theorem test_words_immediates :
    stands 0b0110_0000_0000_0101 (.ldVxKk 0x0 0x05) ∧ stands 0b0111_0010_0000_0010 (.addVxKk 0x2 0x02) ∧
    stands 0b1010_0000_0101_0000 (.ldINnn 0x050) ∧ stands 0b1100_0011_0000_1111 (.rndVxKk 0x3 0x0F) := by decide

theorem test_words_family_8 :
    stands 0b1000_0100_0101_0000 (.ldVxVy 0x4 0x5) ∧ stands 0b1000_0001_0010_0001 (.orVxVy 0x1 0x2) ∧
    stands 0b1000_0001_0010_0010 (.andVxVy 0x1 0x2) ∧ stands 0b1000_0001_0010_0011 (.xorVxVy 0x1 0x2) ∧
    stands 0b1000_0000_0001_0100 (.addVxVy 0x0 0x1) ∧ stands 0b1000_0001_0010_0101 (.subVxVy 0x1 0x2) ∧
    stands 0b1000_0011_0101_0110 (.shrVx 0x3 0x5) ∧ stands 0b1000_0001_0010_0111 (.subnVxVy 0x1 0x2) ∧
    stands 0b1000_0011_0000_1110 (.shlVx 0x3 0x0) ∧ stands 0b1000_0001_0010_1111 (.nop8 0x12 0xF) := by decide

theorem test_words_draw_and_keys :
    stands 0b1101_1011_1100_0010 (.drwVxVyN 0xB 0xC 0x2) ∧ stands 0b1110_0010_1001_1110 (.skpVx 0x2) ∧
    stands 0b1110_0010_1010_0001 (.sknpVx 0x2) ∧ stands 0b1110_0000_0000_0000 (.nopE 0x0 0x00) := by decide

theorem test_words_family_F :
    stands 0b1111_0001_0000_0111 (.ldVxDt 0x1) ∧ stands 0b1111_0011_0000_1010 (.ldVxK 0x3) ∧
    stands 0b1111_0000_0001_0101 (.ldDtVx 0x0) ∧ stands 0b1111_0000_0001_1000 (.ldStVx 0x0) ∧
    stands 0b1111_0100_0001_1110 (.addIVx 0x4) ∧ stands 0b1111_0111_0010_1001 (.ldFVx 0x7) ∧
    stands 0b1111_0000_0011_0011 (.ldBVx 0x0) ∧ stands 0b1111_0010_0101_0101 (.ldMemVx 0x2) ∧
    stands 0b1111_0010_0110_0101 (.ldVxMem 0x2) ∧ stands 0b1111_0000_1111_1111 (.nopF 0x0 0xFF) := by decide

/-- Bytes are taken big-endian, the rest is left, and too few bytes are refused by name (R57, R70). -/
theorem test_decode_bytes :
    (decode [0x12, 0x34, 0x56] matches .ok (.jp 0x234, [0x56])) ∧ (decode [0x12] matches .error .truncated) ∧
    (decode [] matches .error .truncated) := by decide

theorem test_decodeTableWord :
    decodeTableWord 16 0xD125 = some (.drwVxVyN 1 2 5) ∧ decodeTableWord 24 0 = none := by decide

/-! ### One step of each instruction (vectors C, J, A, M, G, K of 95_test_vectors.md) -/

-- C6, J12, C7, A32
theorem test_noOps :
    cycleOf 0x8008 [] (fun t => t.pc == 0x202 && t.opcode == 0x8008) ∧
    cycleOf 0x0123 [] (fun t => t.pc == 0x202) ∧ cycleOf 0xE000 [] (fun t => t.pc == 0x202) ∧
    cycleOf 0xF0FF [] (fun t => t.pc == 0x202) ∧ cycleOf 0x812F [(1, 3)] (fun t => t.v[1] == 3) := by decide

-- C1: the last word of memory is fetched
theorem test_fetch_at_top : after (step (atWord 0xFFE 0x00E0 State.reset)) (fun t => t.pc == 0x1000) := by decide

-- C3, C4, C2
theorem test_fetch_faults :
    after (step { State.reset with pc := 0x201 }) (fun t => t.fault == some ⟨.misalignedFetch, 0x201, 0⟩) ∧
    after (step { State.reset with pc := 0x1001 }) (fun t => t.fault == some ⟨.misalignedFetch, 0x1001, 0⟩) ∧
    after (step { State.reset with pc := 0x1000 })
      (fun t => t.fault == some ⟨.memoryOutOfRange, 0x1000, 0x1000⟩ && t.pc == 0x1000) := by decide

-- J1, J4
theorem test_jp : cycleOf 0x1ABC [] (fun t => t.pc == 0xABC) := by decide
theorem test_jpV0 : cycleOf 0xBFFF [(0, 0xFF)] (fun t => t.pc == 0x10FE && t.fault == none) := by decide
-- J5: the x field selects no register
theorem test_jpV0_reads_V0 : cycleOf 0xB500 [(5, 0x20)] (fun t => t.pc == 0x500) := by decide

-- J7, J8
theorem test_call_last_entry :
    after (step (atWord 0x204 0x2210 { State.reset with sp := 15 }))
      (fun t => t.stack[15] == 0x206 && t.sp == 16 && t.pc == 0x210) := by decide
theorem test_call_overflow :
    after (step (atWord 0x204 0x2210 { State.reset with sp := 16 }))
      (fun t => t.fault == some ⟨.stackOverflow, 0x204, 0⟩ && t.pc == 0x206 && t.sp == 16 && t.stack[15] == 0) := by
  decide

-- J9, J10
theorem test_ret :
    after (step (atWord 0x212 0x00EE { State.reset with sp := 1, stack := State.reset.stack.set 0 0x206 }))
      (fun t => t.sp == 0 && t.pc == 0x206 && t.stack[0] == 0x206) := by decide
theorem test_ret_underflow :
    after (step (atWord 0x300 0x00EE State.reset))
      (fun t => t.fault == some ⟨.stackUnderflow, 0x300, 0⟩ && t.pc == 0x302) := by decide

-- J13 to J16
theorem test_skips_on_immediate :
    cycleOf 0x332A [(3, 0x2A)] (fun t => t.pc == 0x204) ∧ cycleOf 0x332A [(3, 0x2B)] (fun t => t.pc == 0x202) ∧
    cycleOf 0x432A [(3, 0x2A)] (fun t => t.pc == 0x202) ∧ cycleOf 0x432A [(3, 0x2B)] (fun t => t.pc == 0x204) := by
  decide

-- J18, J19, J20, J21
theorem test_skips_on_registers :
    cycleOf 0x5125 [(1, 7), (2, 7)] (fun t => t.pc == 0x204) ∧
    cycleOf 0x5120 [(1, 7), (2, 8)] (fun t => t.pc == 0x202) ∧
    cycleOf 0x9120 [(1, 7), (2, 8)] (fun t => t.pc == 0x204) ∧
    cycleOf 0x9120 [(1, 7), (2, 7)] (fun t => t.pc == 0x202) := by decide

-- A2, A3, A5
theorem test_ldVxKk : cycleOf 0x6FAA [] (fun t => t.v[15] == 0xAA) := by decide
theorem test_addVxKk : cycleOf 0x7202 [(2, 0xFF), (15, 7)] (fun t => t.v[2] == 0x01 && t.v[15] == 7) := by decide
theorem test_ldVxVy : cycleOf 0x8450 [(5, 0x33)] (fun t => t.v[4] == 0x33 && t.v[5] == 0x33) := by decide

-- A6, A7, A8
theorem test_orVxVy :
    cycleOf 0x8121 [(1, 0xF0), (2, 0x0F), (15, 0x55)] (fun t => t.v[1] == 0xFF && t.v[15] == 0x55) := by decide
theorem test_andVxVy : cycleOf 0x8122 [(1, 0xF0), (2, 0x3C)] (fun t => t.v[1] == 0x30) := by decide
theorem test_xorVxVy : cycleOf 0x8123 [(1, 0xF0), (2, 0x3C)] (fun t => t.v[1] == 0xCC) := by decide

-- A12, A11, A14, A15
theorem test_addVxVy :
    cycleOf 0x8124 [(1, 0xFF), (2, 0xFF)] (fun t => t.v[1] == 0xFE && t.v[15] == 1) ∧
    cycleOf 0x8124 [(1, 0x80), (2, 0x7F)] (fun t => t.v[1] == 0xFF && t.v[15] == 0) := by decide
theorem test_addVxVy_VF :
    cycleOf 0x8F24 [(15, 0xFF), (2, 0x01)] (fun t => t.v[15] == 1) ∧
    cycleOf 0x81F4 [(1, 0x10), (15, 0xF5)] (fun t => t.v[1] == 0x05 && t.v[15] == 1) := by decide

-- A17, A18, A20
theorem test_subVxVy :
    cycleOf 0x8125 [(1, 3), (2, 5)] (fun t => t.v[1] == 0xFE && t.v[15] == 0) ∧
    cycleOf 0x8125 [(1, 7), (2, 7)] (fun t => t.v[1] == 0 && t.v[15] == 1) := by decide
theorem test_subVxVy_VF : cycleOf 0x8F15 [(15, 0x10), (1, 0x20)] (fun t => t.v[15] == 0) := by decide

-- A21, A22
theorem test_subnVxVy :
    cycleOf 0x8127 [(1, 3), (2, 5)] (fun t => t.v[1] == 0x02 && t.v[15] == 1) ∧
    cycleOf 0x8127 [(1, 5), (2, 3)] (fun t => t.v[1] == 0xFE && t.v[15] == 0) := by decide

-- A24, A26, A27
theorem test_shrVx :
    cycleOf 0x8306 [(3, 5)] (fun t => t.v[3] == 2 && t.v[15] == 1) ∧
    cycleOf 0x8356 [(3, 1), (5, 0xFF)] (fun t => t.v[3] == 0 && t.v[15] == 1 && t.v[5] == 0xFF) := by decide
theorem test_shrVx_VF : cycleOf 0x8FF6 [(15, 5)] (fun t => t.v[15] == 2) := by decide

-- A28, A29, A31
theorem test_shlVx :
    cycleOf 0x830E [(3, 0x81)] (fun t => t.v[3] == 0x02 && t.v[15] == 1) ∧
    cycleOf 0x830E [(3, 0x7F)] (fun t => t.v[3] == 0xFE && t.v[15] == 0) := by decide
theorem test_shlVx_VF : cycleOf 0x8FFE [(15, 0x81)] (fun t => t.v[15] == 2) := by decide

-- M1, M4, M6
theorem test_ldINnn : cycleOf 0xA050 [] (fun t => t.index == 0x050) := by decide
theorem test_addIVx :
    after (step (atWord 0x200 0xF01E (withV { State.reset with index := 0xFFFF } [(0, 2)])))
      (fun t => t.index == 0x0001) ∧
    after (step (atWord 0x200 0xF01E (withV { State.reset with index := 0xFFF } [(0, 1)])))
      (fun t => t.index == 0x1000 && t.fault == none) := by decide
theorem test_ldFVx : cycleOf 0xF729 [(7, 0x1A)] (fun t => t.index == 0x082) := by decide

-- M8, M9: whatever byte is drawn
theorem test_rndVxKk : cycleOf 0xC30F [] (fun t => t.draws == 1 && t.pc == 0x202) := by decide
theorem test_rndVxKk_masks_all :
    ∃ t, exec (.rndVxKk 3 0x00) State.reset = .next t ∧ t.v[(3 : Reg)] = 0 :=
  ⟨_, rfl, (BitVec.and_zero : State.reset.randomByte &&& 0#8 = 0#8)⟩

-- M14, M15
theorem test_ldBVx :
    after (step (atWord 0x200 0xF033 (withV { State.reset with index := 0xFFD } [(0, 0xFF)])))
      (fun t => readBlock t.mem 0xFFD 3 == [2, 5, 5]) := by decide
theorem test_ldBVx_out_of_range :
    after (step (atWord 0x200 0xF033 (withV { State.reset with index := 0xFFE } [(0, 0xFF)])))
      (fun t => t.fault == some ⟨.memoryOutOfRange, 0x200, 0x1000⟩ && readByte t.mem 0xFFE == 0) := by decide

-- M16, M17, M19
theorem test_ldMemVx :
    after (step (atWord 0x200 0xF155 (withV { State.reset with index := 0x400 } [(0, 1), (1, 2), (2, 3)])))
      (fun t => readBlock t.mem 0x400 3 == [1, 2, 0] && t.index == 0x400) := by decide
theorem test_ldMemVx_out_of_range :
    after (step (atWord 0x200 0xFF55 (withV { State.reset with index := 0xFF1 } [(0, 1)])))
      (fun t => t.fault == some ⟨.memoryOutOfRange, 0x200, 0x1000⟩ && readByte t.mem 0xFF1 == 0) := by decide

-- M22, M21
theorem test_ldVxMem :
    after (step (atWord 0x200 0xF465 (withV { State.reset with index := 0x050 } [(5, 9)])))
      (fun t => t.v.toList.take 6 == [0xF0, 0x90, 0x90, 0x90, 0xF0, 9] && t.index == 0x050) := by decide
theorem test_ldVxMem_out_of_range :
    after (step (atWord 0x200 0xF065 { State.reset with index := 0x1234 }))
      (fun t => t.fault == some ⟨.memoryOutOfRange, 0x200, 0x1234⟩ && t.v[0] == 0) := by decide

-- G1
theorem test_cls :
    after (step (atWord 0x200 0x00E0 (withV { State.reset with fb := lit 5 6 } [(15, 1)])))
      (fun t => t.fb == State.reset.fb && t.v[15] == 1) := by decide

-- S12 and G2: the glyph of digit 0 in the top-left corner
theorem test_drw_glyph :
    after (step (atWord 0x200 0xD005 { State.reset with index := 0x050 }))
      (fun t => t.v[15] == 0 && t.fb[0] == 0xF000000000000000 && t.fb[1] == 0x9000000000000000 &&
        t.fb[4] == 0xF000000000000000 && t.fb[5] == 0) := by decide

-- G9: collision and clipping at the right edge
theorem test_drw_clips_and_collides :
    after (step (atWord 0x200 0xD011
        (withBytes (withV { State.reset with index := 0x300, fb := lit 63 0 } [(0, 0x3F)]) 0x300 [0xFF])))
      (fun t => t.v[15] == 1 && t.fb[0] == 0 && t.fb[1] == 0) := by decide

-- K1, K4, K5
theorem test_skpVx :
    after (step (atWord 0x206 0xE29E (withV (State.reset.putKey 7 true) [(2, 7)]))) (fun t => t.pc == 0x20A) ∧
    after (step (atWord 0x206 0xE29E (withV State.reset [(2, 0x10)])))
      (fun t => t.fault == some ⟨.keyIndexOutOfRange, 0x206, 0⟩ && t.pc == 0x208) := by decide
theorem test_sknpVx :
    after (step (atWord 0x206 0xE2A1 (withV (State.reset.putKey 7 true) [(2, 7)]))) (fun t => t.pc == 0x208) ∧
    after (step (atWord 0x206 0xE2A1 (withV State.reset [(2, 7)]))) (fun t => t.pc == 0x20A) := by decide

-- K6, K7, K8
theorem test_ldVxDt : after (step (atWord 0x200 0xF107 { State.reset with dt := 0x3C })) (fun t => t.v[1] == 0x3C) := by
  decide
theorem test_ldDtVx : cycleOf 0xF015 [(0, 0x3C)] (fun t => t.dt == 0x3C && t.st == 0) := by decide
theorem test_ldStVx : cycleOf 0xF018 [(0, 0x01)] (fun t => t.st == 1 && t.dt == 0 && soundActive t) := by decide

-- K10, K9
theorem test_ldVxK :
    after (step (atWord 0x200 0xF30A ((State.reset.putKey 9 true).putKey 3 true)))
      (fun t => t.v[3] == 3 && t.pc == 0x202) := by decide
theorem test_ldVxK_waits : cycleOf 0xF30A [(3, 8)] (fun t => t.v[3] == 8 && t.pc == 0x200) := by decide

/-! ### Host operations (T, L) -/

-- T3, T2, T4
theorem test_tickTimers :
    tickTimers { State.reset with dt := 5, st := 1 } = { State.reset with dt := 4 } ∧
    tickTimers State.reset = State.reset ∧
    tickTimers { State.reset with dt := 5, fault := some ⟨.stackOverflow, 0x204, 0⟩ } =
      { State.reset with dt := 4, fault := some ⟨.stackOverflow, 0x204, 0⟩ } := by decide

-- the image of S11, and what is beyond it
theorem test_load :
    (loadImage [0x60, 0x05, 0x61, 0x03, 0x80, 0x14] State.reset).1 = .ok ∧
    readBlock (loadImage [0x60, 0x05, 0x61, 0x03, 0x80, 0x14] State.reset).2.mem 0x1FF 8 =
      [0x00, 0x60, 0x05, 0x61, 0x03, 0x80, 0x14, 0x00] := by decide

/-- A byte written back to its reset contents leaves no cell (log 6). -/
theorem test_memory_canonical :
    writeByte (writeByte [] 0x050 0x11) 0x050 0xF0 = [] ∧ writeByte [(0x300, 1)] 0x200 2 = [(0x200, 2), (0x300, 1)] := by
  decide

theorem test_withFetchWord :
    after (step (State.reset.withFetchWord 16 0x6005)) (fun t => t.v[0] == 5 && t.pc == 0x202) := by decide

/-! ### Witnesses: states and operands that meet the hypotheses of the statements -/

/-- Reset with the word w at 0x200. -/
def ready (w : Word) : State := atWord 0x200 w State.reset

/-- Reset with a recorded fault. -/
def halted : State := { State.reset with fault := some ⟨.stackOverflow, 0x204, 0⟩ }

/-- CALL 0x210 at 0x200 and RET at 0x210. -/
def callAndRet : State := withBytes (ready 0x2210) 0x210 [0x00, 0xEE]

theorem witness_CanFetch : CanFetch (ready 0x6005) ∧ CanFetch (atWord 0xFFE 0x00E0 State.reset) :=
  ⟨⟨rfl, by decide, by decide⟩, rfl, by decide, by decide⟩

theorem witness_StepRunsDecodedInstruction :
    CanFetch (ready 0x6005) ∧
    (0x6005 : Word).toNat = (readByte (ready 0x6005).mem (ready 0x6005).pc.toNat).toNat * 256 +
      (readByte (ready 0x6005).mem ((ready 0x6005).pc.toNat + 1)).toNat ∧
    decode [readByte (ready 0x6005).mem (ready 0x6005).pc.toNat,
      readByte (ready 0x6005).mem ((ready 0x6005).pc.toNat + 1)] = .ok (.ldVxKk 0 5, []) :=
  ⟨witness_CanFetch.1, by decide, rfl⟩

theorem witness_RecordedFaultHaltsAndStays :
    halted.fault = some ⟨.stackOverflow, 0x204, 0⟩ ∧
    ∃ t res, hostOp (.load [0x00, 0xE0]) halted = .next (t, res) := ⟨rfl, _, _, rfl⟩

theorem witness_FetchChecksFault :
    State.reset.fault = none ∧ (0xFFF : Word).toNat % 2 = 1 ∧ (0x1000 : Word).toNat % 2 = 0 ∧
    0xFFE < (0x1000 : Word).toNat := by decide

/-- In execute (RET with an empty stack) and at the fetch checks (an odd pc). -/
theorem witness_FaultsArePrecise :
    (CanFetch (ready 0x00EE) ∧ after (step (ready 0x00EE)) (fun t => t.fault == some ⟨.stackUnderflow, 0x200, 0⟩)) ∧
    (¬ CanFetch { State.reset with pc := 0xFFF } ∧
      after (step { State.reset with pc := 0xFFF }) (fun t => t.fault == some ⟨.misalignedFetch, 0xFFF, 0⟩)) :=
  ⟨⟨⟨rfl, by decide, by decide⟩, by decide⟩, fun h => absurd h.2.1 (by decide), by decide⟩

/-- A fault and no fault of one instruction, at the boundary of its range. -/
theorem witness_FaultsExactlyAsTabulated :
    State.reset.fault = none ∧
    after (exec (.ldBVx 0) { State.reset with index := 0xFFE }) (fun t => t.fault.isSome) ∧
    after (exec (.ldBVx 0) { State.reset with index := 0xFFD }) (fun t => t.fault.isNone) := by decide

theorem witness_NoOpSpaceOnlyAdvances :
    CanFetch (ready 0x8128) ∧ noOpWord (fetchWord (ready 0x8128).mem (ready 0x8128).pc) :=
  ⟨⟨rfl, by decide, by decide⟩, .inr (.inl (by decide))⟩

theorem witness_CycleKeepsKeys : ∃ t, step (ready 0x6005) = .next t := ⟨_, rfl⟩

/-- An odd target, and for JP V0 an even one above 0xFFE. -/
theorem witness_JumpsWritePcUnchecked :
    (0x201 : Imm12).toNat % 2 = 1 ∧
    after (exec (.jpV0Nnn 0xFFF) State.reset) (fun t => t.pc.toNat % 2 == 1) ∧
    after (exec (.jpV0Nnn 0xFFF) (withV State.reset [(0, 1)])) (fun t => t.pc.toNat == 0x1000) := by decide

theorem witness_CallPushesOrOverflows :
    ({ State.reset with sp := 15 } : State).sp.val < 16 ∧ ({ State.reset with sp := 16 } : State).sp.val = 16 := by
  decide

theorem witness_RetPopsOrUnderflows :
    ({ State.reset with sp := 1 } : State).sp.val = (0 : Fin 16).val + 1 ∧
    ({ State.reset with sp := 16 } : State).sp.val = (15 : Fin 16).val + 1 ∧ State.reset.sp.val = 0 := by decide

theorem witness_CallThenReturnComesBack :
    CanFetch callAndRet ∧ callAndRet.sp.val < 16 ∧ decodeWord (fetchWord callAndRet.mem callAndRet.pc) = .call 0x210 ∧
    (0x210 : Imm12).toNat % 2 = 0 ∧ (0x210 : Imm12).toNat ≤ 0xFFE ∧
    decodeWord (fetchWord callAndRet.mem ((0x210 : Imm12).zeroExtend 16)) = .ret 0 :=
  ⟨⟨rfl, by decide, by decide⟩, by decide, by decide, by decide, by decide, by decide⟩

/-- Skip taken, skip not taken, and a skip that leaves pc = 0x1002. -/
theorem witness_SkipsOnImmediate :
    State.reset.v[(3 : Reg)] = 0 ∧ State.reset.v[(3 : Reg)] ≠ 1 ∧
    after (exec (.seVxKk 3 0) { State.reset with pc := 0x1000 }) (fun t => t.pc == 0x1002 && t.fault == none) ∧
    after (exec (.sneVxKk 3 1) { State.reset with pc := 0x1000 }) (fun t => t.pc == 0x1002 && t.fault == none) := by
  decide

theorem witness_SkipsOnRegisters :
    State.reset.v[(1 : Reg)] = State.reset.v[(2 : Reg)] ∧
    (withV State.reset [(1, 7)]).v[(1 : Reg)] ≠ (withV State.reset [(1, 7)]).v[(2 : Reg)] := by decide

theorem witness_FlagArithmeticResultAndFlag : (0 : Reg) ≠ 0xF ∧ (0xE : Reg) ≠ 0xF := by decide

theorem witness_RandomByteIsMasked : (0x0F : Byte).getLsbD 4 = false ∧ (3 : Reg) ≠ 4 := by decide

/-- The last in-range base for the decimal store, and the last for a full block transfer. -/
theorem witness_memory_in_range :
    Memory.wf State.reset.mem ∧ indexBase { State.reset with index := 0xFFD } + 2 ≤ 0xFFF ∧
    indexBase { State.reset with index := 0xFF0 } + (15 : Reg).val ≤ 0xFFF ∧
    indexBase { State.reset with index := 0xFFF } + (0 : Reg).val ≤ 0xFFF := by decide

/-- The first out-of-range base for each of the four instructions; for the last, every address is out of range. -/
theorem witness_AccessPastTopWritesNothing :
    (∃ a, indexBase { State.reset with index := 0xFFE } ≤ a ∧
      a < indexBase { State.reset with index := 0xFFE } + 3 ∧ 0xFFF < a) ∧
    (∃ a, indexBase { State.reset with index := 0xFF1 } ≤ a ∧
      a < indexBase { State.reset with index := 0xFF1 } + ((15 : Reg).val + 1) ∧ 0xFFF < a) ∧
    (∃ a, indexBase { State.reset with index := 0xFFF } ≤ a ∧
      a < indexBase { State.reset with index := 0xFFF } + (2 : BitVec 4).toNat ∧ 0xFFF < a) ∧
    (∃ a, indexBase { State.reset with index := 0xFFFF } ≤ a ∧
      a < indexBase { State.reset with index := 0xFFFF } + ((0 : Reg).val + 1) ∧ 0xFFF < a) :=
  ⟨⟨0x1000, by decide⟩, ⟨0x1000, by decide⟩, ⟨0x1000, by decide⟩, 0xFFFF, by decide⟩

theorem witness_StoreThenLoadRestoresRegisters :
    ∃ s t u : State, Memory.wf s.mem ∧ indexBase s + (0 : Reg).val ≤ 0xFFF ∧ exec (.ldMemVx 0) s = .next t ∧
      exec (.ldVxMem 0) { t with v := Vector.replicate 16 7 } = .next u :=
  ⟨{ State.reset with index := 0xFFF }, _, _, by decide, by decide, rfl, rfl⟩

theorem witness_StoreIsFetchedByNextCycle :
    Memory.wf State.reset.mem ∧ CanFetch { State.reset with index := 0xFFE, pc := 0xFFE } ∧ 1 ≤ (1 : Reg).val ∧
    indexBase { State.reset with index := 0xFFE, pc := 0xFFE } + (1 : Reg).val ≤ 0xFFF :=
  ⟨by decide, ⟨rfl, by decide, by decide⟩, by decide, by decide⟩

/-- Height 0 anywhere, and the last byte of memory. -/
theorem witness_draw_in_range :
    ((0 : BitVec 4).toNat = 0 ∨ indexBase { State.reset with index := 0xFFFF } + (0 : BitVec 4).toNat - 1 ≤ 0xFFF) ∧
    ((15 : BitVec 4).toNat = 0 ∨ indexBase { State.reset with index := 0xFF1 } + (15 : BitVec 4).toNat - 1 ≤ 0xFFF) := by
  decide

/-- A lit pixel under a sprite bit, and none: both collision clauses. -/
theorem witness_DrawXorsSpriteAndReportsCollision :
    (∃ px py, px < 64 ∧ py < 32 ∧ pixel (lit 63 31) px py = true ∧ spriteBit 63 31 [0x80] px py = true) ∧
    ¬ ∃ px py, px < 64 ∧ py < 32 ∧ pixel (lit 63 31) px py = true ∧ spriteBit 63 31 [] px py = true :=
  ⟨⟨63, 31, by decide⟩, by rintro ⟨px, py, -, -, -, h⟩; simp [spriteBit] at h⟩

theorem witness_DrawTwiceRestoresScreen :
    (0 : Reg) ≠ 0xF ∧ (1 : Reg) ≠ 0xF ∧ ∃ t u : State,
      exec (.drwVxVyN 0 1 1) State.reset = .next t ∧ exec (.drwVxVyN 0 1 1) t = .next u :=
  ⟨by decide, by decide, _, _, rfl, rfl⟩

theorem witness_KeySkipsTestKeyState :
    (withV State.reset [(2, 15)]).v[(2 : Reg)].toNat = (15 : Fin 16).val ∧
    (State.reset.putKey 15 true).key[(15 : Fin 16)] = true ∧ State.reset.key[(15 : Fin 16)] = false := by decide

theorem witness_KeyNumberAbove15Faults : 15 < (withV State.reset [(2, 16)]).v[(2 : Reg)].toNat := by decide

theorem witness_KeyWaitTakesLowestOrRewinds :
    ((State.reset.putKey 9 true).putKey 15 true).key[(9 : Fin 16)] = true ∧
    (∀ j : Fin 16, j < 9 → ((State.reset.putKey 9 true).putKey 15 true).key[j] = false) ∧
    (∀ k : Fin 16, (ready 0xF30A).key[k] = false) ∧ CanFetch (ready 0xF30A) ∧
    decodeWord (fetchWord (ready 0xF30A).mem (ready 0xF30A).pc) = .ldVxK 3 :=
  ⟨by decide, by decide, by decide, ⟨rfl, by decide, by decide⟩, by decide⟩

/-- A cycle that changes each timer. -/
theorem witness_OnlyTicksCountTimersDown :
    cycleOf 0xF015 [(0, 9)] (fun t => t.dt != State.reset.dt) ∧
    cycleOf 0xF018 [(0, 9)] (fun t => t.st != State.reset.st) ∧
    ∃ t res, hostOp .soundActive State.reset = .next (t, res) := ⟨by decide, by decide, _, _, rfl⟩

-- S9, L1, L2: the largest image, and one byte more
theorem witness_load_lengths :
    Memory.wf State.reset.mem ∧ (∃ b : List Byte, b.length ≤ 3584 ∧ 3584 ≤ b.length) ∧
    ∃ b : List Byte, 3584 < b.length ∧ b.length ≤ 3585 :=
  have h (n : Nat) : ∃ b : List Byte, b.length = n := ⟨List.replicate n 0, List.length_replicate⟩
  ⟨by decide, (h 3584).imp fun _ e => ⟨by omega, by omega⟩, (h 3585).imp fun _ e => ⟨by omega, by omega⟩⟩

theorem witness_RegistersWrittenOnlyAsListed :
    (∃ t, exec (.addVxVy 1 2) State.reset = .next t) ∧ ¬ writesReg (.addVxVy 1 2) 2 := ⟨⟨_, rfl⟩, by simp [writesReg]⟩

theorem witness_StateWrittenOnlyByItsInstructions :
    (∃ t, exec (.jp 0x300) State.reset = .next t) ∧ writesMem (.jp 0x300) = false ∧ writesFb (.jp 0x300) = false ∧
    writesIndex (.jp 0x300) = false ∧ usesStack (.jp 0x300) = false :=
  ⟨⟨_, rfl⟩, rfl, rfl, rfl, rfl⟩

theorem witness_PcChangesOnlyAsListed :
    (∃ t, exec (.ldVxK 3) State.reset = .next t) ∧ jumps (.ldVxK 3) = false := ⟨⟨_, rfl⟩, rfl⟩

/-- A state other than reset that meets the invariant, with a stack entry, a listed byte and a recorded fault. -/
def sample : State :=
  { State.reset with
    pc := 0x10FE, sp := 1, stack := State.reset.stack.set 0 0x1000, mem := [(0x300, 1)],
    fault := some ⟨.memoryOutOfRange, 0x10FE, 0x10FE⟩ }

theorem witness_StepKeepsInvariant : Inv sample ∧ ∃ t, step sample = .next t :=
  ⟨⟨by decide, by decide, by simp only [ReturnAddress]; decide, fun r h => by
    obtain rfl := Option.some.inj h
    exact ⟨fun _ => by decide, fun h => absurd rfl h, by decide, fun _ h => absurd rfl h⟩⟩, _, rfl⟩

theorem witness_HostRunsKeepInvariant :
    Inv sample ∧ ∃ t res, runHost [.tickTimers, .cycle, .setKey 3 true, .faultStatus] sample = .next (t, res) :=
  ⟨witness_StepKeepsInvariant.1, _, _, rfl⟩

theorem witness_MemoryEqualWhenReadsAgree :
    Memory.wf (writeByte [] 0xFFF 1) ∧ Memory.wf [(0xFFF, 1)] ∧
    ∀ a, readByte (writeByte [] 0xFFF 1) a = readByte [(0xFFF, 1)] a :=
  ⟨by decide, by decide, fun _ => rfl⟩

theorem witness_DecodeOfEncodeIsInstruction :
    (Instr.sys 0xFFF).wf = true ∧ (Instr.nop8 0xFF 0xF).wf = true ∧ (Instr.ldVxMem 0xF).wf = true := by decide

/-- A plain row and a fallback row that are chosen. -/
theorem witness_DecoderFollowsOpcodeMap :
    (OpcodeRow.mk 0xF0FF 0x00EE false ∈ plainRows ++ fallbackRows ∧
      (OpcodeRow.mk 0xF0FF 0x00EE false).chosen 0x0FEE = true) ∧
    (OpcodeRow.mk 0xF000 0xF000 true ∈ plainRows ++ fallbackRows ∧
      (OpcodeRow.mk 0xF000 0xF000 true).chosen 0xF0FF = true) := by decide

end Sys2Proof.Tests
end

section
namespace Sys2Proof.Machine

/-- The length check comes before any copying (20_memory.md R63). -/
theorem loadImage_of_too_large {bytes : List Byte} {s : State} (h : Config.maxImage < bytes.length) :
    loadImage bytes s = (.imageTooLarge, s) := if_pos h

/-- The host's `load` passes on the state and the result of `loadImage`. -/
theorem hostOp_load (bytes : List Byte) (s : State) :
    hostOp (.load bytes) s = .next ((loadImage bytes s).2, .loaded (loadImage bytes s).1) := rfl

/-- Settles O42: the oversized image fails the length check, so `load` hands back the state it was given. -/
theorem oversizedLoadChangesNothing : Obligations.OversizedLoadChangesNothing := by
  intro s bytes h
  have tooLarge : loadImage bytes s = (.imageTooLarge, s) := loadImage_of_too_large h
  rw [hostOp_load, tooLarge]

end Sys2Proof.Machine
end

section
/-! No cycle changes a key (40_cycle.md R98): each meaning keeps the key array, hence so do `exec` and `step`. -/

namespace Sys2Proof.Machine

/-! ### The keys through the call stack and the fetch -/

theorem State.push?_key {s t : State} {w : Word} (h : s.push? w = some t) : t.key = s.key := by
  obtain ⟨-, -, -, ht⟩ := State.push?_some h
  rw [ht]

theorem State.pop?_key {s t : State} (h : s.pop? = some t) : t.key = s.key := by
  obtain ⟨_, -, -, -, ht⟩ := State.pop?_some h
  rw [ht]

@[simp] theorem State.fetched_key (s : State) : s.fetched.key = s.key := rfl

/-! ### The keys through the meanings that end in one of two ways -/

theorem execCall_key {nnn : Imm12} {s t : State} (h : execCall nnn s = .next t) : t.key = s.key := by
  obtain ⟨-, rfl⟩ | ⟨u, pushed, rfl⟩ := execCall_next h
  · rfl
  · rw [State.setPc_key, State.push?_key pushed]

theorem execRet_key {u : BitVec 4} {s t : State} (h : execRet u s = .next t) : t.key = s.key := by
  obtain ⟨-, rfl⟩ | popped := execRet_next h
  · rfl
  · exact State.pop?_key popped

theorem storeAtIndex_key {bs : List Byte} {s t : State} (h : storeAtIndex bs s = .next t) : t.key = s.key := by
  obtain ⟨_, -, rfl⟩ | ⟨-, rfl⟩ := storeAtIndex_next h <;> rfl

theorem execLdVxMem_key {x : Reg} {s t : State} (h : execLdVxMem x s = .next t) : t.key = s.key := by
  obtain ⟨_, -, rfl⟩ | ⟨-, rfl⟩ := execLdVxMem_next h <;> rfl

theorem execDrwVxVyN_key {x y : Reg} {n : BitVec 4} {s t : State} (h : execDrwVxVyN x y n s = .next t) :
    t.key = s.key := by
  obtain ⟨_, -, rfl⟩ | ⟨-, _, _, rfl⟩ := execDrwVxVyN_shape h <;> rfl

theorem execSkpVx_key {x : Reg} {s t : State} (h : execSkpVx x s = .next t) : t.key = s.key := by
  obtain ⟨-, rfl⟩ | ⟨_, -, rfl⟩ := execSkpVx_next h <;> rfl

theorem execSknpVx_key {x : Reg} {s t : State} (h : execSknpVx x s = .next t) : t.key = s.key := by
  obtain ⟨-, rfl⟩ | ⟨_, -, rfl⟩ := execSknpVx_next h <;> rfl

theorem execLdVxK_key {x : Reg} {s t : State} (h : execLdVxK x s = .next t) : t.key = s.key := by
  obtain ⟨-, rfl⟩ | ⟨_, -, rfl⟩ := execLdVxK_next h <;> rfl

/-! ### The keys through a cycle -/

/-- No instruction writes a key. The meanings not named here are updates of other fields, with no condition. -/
theorem exec_key {i : Instr} {s t : State} (h : exec i s = .next t) : t.key = s.key := by
  cases i with
  | call nnn => exact execCall_key h
  | ret u => exact execRet_key (u := u) h
  | ldBVx x => exact storeAtIndex_key h
  | ldMemVx x => exact storeAtIndex_key h
  | ldVxMem x => exact execLdVxMem_key h
  | drwVxVyN x y n => exact execDrwVxVyN_key h
  | skpVx x => exact execSkpVx_key h
  | sknpVx x => exact execSknpVx_key h
  | ldVxK x => exact execLdVxK_key h
  | _ => obtain rfl := Host.Outcome.next.inj h; rfl

/-- Settles O11: a halted core stays as it is, a fetch fault writes the fault register alone, and otherwise neither the
fetch nor the instruction writes a key. -/
theorem cycleKeepsKeys : Obligations.CycleKeepsKeys := by
  intro s t h
  obtain ⟨_, -, rfl⟩ | ⟨-, reason, info, -, rfl⟩ | ⟨-, executed⟩ := step_next h
  · rfl
  · exact s.takeFault_key reason s.pc info
  · calc t.key = s.fetched.key := exec_key executed
      _ = s.key := s.fetched_key

end Sys2Proof.Machine
end

section
/-! Register and arithmetic instructions (42_register_alu.md): the state each one answers and, for the flag
instructions, the result and the flag read back after both writes, in either order of them. -/

namespace Sys2Proof.Machine

/-! ### Immediate loads and copies -/

theorem exec_ldVxKk (s : State) (x : Reg) (kk : Byte) : exec (.ldVxKk x kk) s = .next (s.setV x kk) := rfl

theorem exec_addVxKk (s : State) (x : Reg) (kk : Byte) :
    exec (.addVxKk x kk) s = .next (s.setV x (s.v[x] + kk)) := rfl

theorem exec_ldVxVy (s : State) (x y : Reg) : exec (.ldVxVy x y) s = .next (s.setV x s.v[y]) := rfl

/-- Settles O18: each of the three is one register write, read back at Vx and framed everywhere else. -/
theorem immediateAndCopyWriteVxOnly : Obligations.ImmediateAndCopyWriteVxOnly := by
  intro s x y kk
  refine ⟨⟨_, exec_ldVxKk s x kk, s.setV_same x _, s.setV_onlyRegs x _⟩,
    ⟨_, exec_addVxKk s x kk, ?_, s.setV_onlyRegs x _⟩,
    ⟨_, exec_ldVxVy s x y, s.setV_same x _, s.setV_onlyRegs x _⟩⟩
  rw [s.setV_same, BitVec.toNat_add]

/-! ### The flag instructions: what each answers -/

theorem exec_addVxVy (s : State) (x y : Reg) :
    exec (.addVxVy x y) s = .next ((s.setV x (s.v[x] + s.v[y])).setFlag (carryFlag s.v[x] s.v[y])) := rfl

theorem exec_subVxVy (s : State) (x y : Reg) :
    exec (.subVxVy x y) s = .next ((s.setV x (s.v[x] - s.v[y])).setFlag (notBorrowFlag s.v[x] s.v[y])) := rfl

theorem exec_subnVxVy (s : State) (x y : Reg) :
    exec (.subnVxVy x y) s = .next ((s.setV x (s.v[y] - s.v[x])).setFlag (notBorrowFlag s.v[y] s.v[x])) := rfl

theorem exec_shrVx (s : State) (x y : Reg) :
    exec (.shrVx x y) s = .next ((s.setFlag (shiftedOutRight s.v[x])).setV x (s.v[x] >>> 1)) := rfl

theorem exec_shlVx (s : State) (x y : Reg) :
    exec (.shlVx x y) s = .next ((s.setFlag (shiftedOutLeft s.v[x])).setV x (s.v[x] <<< 1)) := rfl

/-! ### A result and a flag, read back -/

/-- The flag, written last, reads back whatever register the result went to. -/
theorem State.setFlag_flag (s : State) (c : Byte) : (s.setFlag c).v[(0xF : Reg)] = c := s.setV_same 0xF c

/-- The result survives the flag written after it, unless it went to VF. -/
theorem State.setV_setFlag_result (s : State) {x : Reg} (hx : x ≠ 0xF) (b c : Byte) :
    ((s.setV x b).setFlag c).v[x] = b := by
  rw [State.setFlag_get, if_neg hx, s.setV_same]

/-- The flag survives the result written after it, unless that went to VF. -/
theorem State.setFlag_setV_flag (s : State) {x : Reg} (hx : x ≠ 0xF) (b c : Byte) :
    ((s.setFlag c).setV x b).v[(0xF : Reg)] = c := by
  rw [State.setV_other _ _ _ _ hx.symm, s.setFlag_flag]

/-! ### The results as numbers -/

/-- A difference of bytes is the difference of their values mod 256, in the integers. -/
theorem byte_sub_toNat (a b : Byte) : ((a - b).toNat : Int) = ((a.toNat : Int) - b.toNat) % 256 := by
  have := b.isLt
  rw [BitVec.toNat_sub]
  omega

theorem byte_ushiftRight_one_toNat (a : Byte) : (a >>> 1).toNat = a.toNat / 2 := by
  rw [BitVec.toNat_ushiftRight, Nat.shiftRight_one]

theorem byte_shiftLeft_one_toNat (a : Byte) : (a <<< 1).toNat = a.toNat * 2 % 256 := by
  rw [BitVec.toNat_shiftLeft, Nat.shiftLeft_eq, Nat.pow_one]

/-- Settles O20: with x other than F the two writes go to different registers, so that either order leaves both the
result in Vx and the flag in VF; what remains is the value of each. -/
theorem flagArithmeticResultAndFlag : Obligations.FlagArithmeticResultAndFlag := by
  intro s x y hx
  refine ⟨⟨_, exec_addVxVy s x y, ?_, ?_, s.setV_setFlag_onlyRegs x _ _⟩,
    ⟨_, exec_subVxVy s x y, ?_, ?_, s.setV_setFlag_onlyRegs x _ _⟩,
    ⟨_, exec_subnVxVy s x y, ?_, ?_, s.setV_setFlag_onlyRegs x _ _⟩,
    ⟨_, exec_shrVx s x y, ?_, ?_, s.setFlag_setV_onlyRegs x _ _⟩,
    ⟨_, exec_shlVx s x y, ?_, ?_, s.setFlag_setV_onlyRegs x _ _⟩⟩
  · rw [s.setV_setFlag_result hx, BitVec.toNat_add]
  · rw [State.setFlag_flag, carryFlag_eq]
  · rw [s.setV_setFlag_result hx, byte_sub_toNat]
  · rw [State.setFlag_flag, notBorrowFlag_eq]
  · rw [s.setV_setFlag_result hx, byte_sub_toNat]
  · rw [State.setFlag_flag, notBorrowFlag_eq]
  · rw [State.setV_same, byte_ushiftRight_one_toNat]
  · rw [s.setFlag_setV_flag hx, shiftedOutRight_toNat]
  · rw [State.setV_same, byte_shiftLeft_one_toNat]
  · rw [s.setFlag_setV_flag hx, shiftedOutLeft_toNat]

end Sys2Proof.Machine
end

section
/-! The index instructions (43_index_memory.md): the state each one answers is one write of I, framed everywhere else. -/

namespace Sys2Proof.Machine

/-- A write of I changes I alone. -/
theorem State.setIndex_onlyIndex (s : State) (w : Word) : OnlyIndex s (s.setIndex w) := rfl

theorem exec_ldINnn (s : State) (nnn : Imm12) : exec (.ldINnn nnn) s = .next (s.setIndex (absolute nnn)) := rfl

theorem exec_ldFVx (s : State) (x : Reg) : exec (.ldFVx x) s = .next (s.setIndex (glyphAddress s.v[x])) := rfl

/-- Every glyph lies in the built-in font: a low nibble is at most 15, so the last glyph starts at 0x09B (R142). -/
theorem glyphAddress_bounds (a : Byte) : 0x050 ≤ (glyphAddress a).toNat ∧ (glyphAddress a).toNat ≤ 0x09B := by
  rw [glyphAddress_toNat]
  omega

/-- Settles O22: each of the two is one write of I, to the zero-extended immediate or to a glyph's address. -/
theorem loadIndexImmediateAndGlyph : Obligations.LoadIndexImmediateAndGlyph := by
  intro s nnn x
  obtain ⟨fromFirst, toLast⟩ := glyphAddress_bounds s.v[x]
  exact ⟨⟨_, exec_ldINnn s nnn, absolute_toNat nnn, s.setIndex_onlyIndex _⟩,
    ⟨_, exec_ldFVx s x, glyphAddress_toNat s.v[x], fromFirst, toLast, s.setIndex_onlyIndex _⟩⟩

end Sys2Proof.Machine
end

section
/-! The display instructions (44_display.md): CLS replaces the screen with one whose every row is blank. -/

namespace Sys2Proof.Machine

/-- A screen of blank rows is unlit at every pixel on it. -/
theorem pixel_blankScreen (px : Nat) {py : Nat} (hy : py < 32) :
    pixel (Vector.replicate 32 0) px py = false := by
  rw [pixel_eq _ px ⟨py, hy⟩, Fin.getElem_fin, Vector.getElem_replicate, zeroRow_getMsbD]

/-- A write of the screen is framed: no other field changes. -/
theorem State.setFb_onlyFb (s : State) (f : Framebuffer) : s.setFb f = { s with fb := (s.setFb f).fb } := rfl

theorem exec_cls (s : State) (u : BitVec 4) : exec (.cls u) s = .next (s.setFb (Vector.replicate 32 0)) := rfl

/-- Settles O35: CLS is one write of the screen, and each row it writes is blank. -/
theorem clearScreenUnlightsEveryPixel : Obligations.ClearScreenUnlightsEveryPixel := by
  intro s u
  refine ⟨_, exec_cls s u, fun px py _ hy => ?_, s.setFb_onlyFb _⟩
  rw [State.setFb_fb, pixel_blankScreen px hy]

end Sys2Proof.Machine
end

section
/-! Timer access (45_input_timers.md): the state each of the three answers is one write, of a register or of a timer. -/

namespace Sys2Proof.Machine

/-- A write of the delay timer is framed: no other field changes. -/
theorem State.setDt_onlyDt (s : State) (b : Byte) : s.setDt b = { s with dt := (s.setDt b).dt } := rfl

/-- A write of the sound timer is framed: no other field changes. -/
theorem State.setSt_onlySt (s : State) (b : Byte) : s.setSt b = { s with st := (s.setSt b).st } := rfl

/-- Sound is active (R42) exactly while the sound timer has not run down to 0. -/
theorem soundActive_iff (s : State) : soundActive s = true ↔ s.st ≠ 0 :=
  calc soundActive s = true ↔ 0 < s.st.toNat := decide_eq_true_iff
    _ ↔ s.st.toNat ≠ (0 : Byte).toNat := Nat.pos_iff_ne_zero
    _ ↔ s.st ≠ 0 := BitVec.toNat_ne_iff_ne

theorem exec_ldVxDt (s : State) (x : Reg) : exec (.ldVxDt x) s = .next (s.setV x s.dt) := rfl

theorem exec_ldDtVx (s : State) (x : Reg) : exec (.ldDtVx x) s = .next (s.setDt s.v[x]) := rfl

theorem exec_ldStVx (s : State) (x : Reg) : exec (.ldStVx x) s = .next (s.setSt s.v[x]) := rfl

/-- Settles O38: each of the three is one write, read back at its destination and framed everywhere else; sound follows
the sound timer just written. -/
theorem timerAccessCopies : Obligations.TimerAccessCopies := by
  intro s x
  have sound : soundActive (s.setSt s.v[x]) = true ↔ s.v[x] ≠ 0 := by rw [soundActive_iff, State.setSt_st]
  exact ⟨⟨_, exec_ldVxDt s x, s.setV_same x _, s.setV_onlyRegs x _⟩,
    ⟨_, exec_ldDtVx s x, s.setDt_dt _, s.setDt_onlyDt _⟩,
    ⟨_, exec_ldStVx s x, s.setSt_st _, s.setSt_onlySt _, sound⟩⟩

end Sys2Proof.Machine
end

section
/-! The execute step in closed form (40_cycle.md R94, R95): an instruction either raises the one fault that the table of
60_exceptions.md R201 gives it, or completes. The frames of a completed instruction follow, one lemma per field. -/

namespace Sys2Proof.Machine

/-- The fault_addr that an execute fault records: the lowest address above 0xFFF from I on, or 0 (R33, R54). -/
def faultInfo (reason : FaultReason) (s : State) : Word :=
  match reason with
  | .memoryOutOfRange => BitVec.ofNat 16 (max (indexBase s) Config.memSize)
  | _ => 0

/-- The state that an instruction answers when it raises no fault. The instructions that can raise one, and the key
wait, are written out; every other one answers a next state without a condition. -/
def completed (i : Instr) (s : State) : State :=
  match i with
  | .call nnn =>
    { s with pc := absolute nnn, sp := s.sp + 1, stack := s.stack.setIfInBounds s.sp.val s.pc }
  | .ret _ => { s with pc := s.stack[s.sp.val - 1]?.getD 0, sp := s.sp - 1 }
  | .drwVxVyN x y n =>
    (s.setFb (blit s.fb (s.v[x].toNat % 64) (s.v[y].toNat % 32) (readBlock s.mem (indexBase s) n.toNat))).setFlag
      (flagOf (collides s.fb (s.v[x].toNat % 64) (s.v[y].toNat % 32) (readBlock s.mem (indexBase s) n.toNat)))
  | .ldBVx x => s.setMem (writeBlock s.mem (indexBase s) (decimalDigits s.v[x]))
  | .ldMemVx x => s.setMem (writeBlock s.mem (indexBase s) (s.firstRegs x))
  | .ldVxMem x => s.loadRegs (readBlock s.mem (indexBase s) (x.val + 1))
  | .skpVx x => s.skipIf ((keyNumber? s.v[x]).any fun k => s.key[k])
  | .sknpVx x => s.skipIf ((keyNumber? s.v[x]).any fun k => !s.key[k])
  | .ldVxK x =>
    match s.lowestKey? with
    | some k => s.setV x (BitVec.ofNat 8 k.val)
    | none => s.setPc (s.pc - 2)
  | i =>
    match exec i s with
    | .next t => t
    | .refused _ => s

/-! ### An instruction that raises a fault -/

theorem execCall_full {s : State} (nnn : Imm12) (full : s.sp.val = 16) :
    execCall nnn s = .next (s.raise .stackOverflow 0) := by
  rw [execCall, (s.push?_none s.pc).2 full]

theorem execRet_empty {s : State} (u : BitVec 4) (empty : s.sp.val = 0) :
    execRet u s = .next (s.raise .stackUnderflow 0) := by
  rw [execRet, s.pop?_none.2 empty]

/-- An access past the top of memory fails the range check with the lowest address above 0xFFF (R54 to R56). -/
theorem outOfRange?_pastTop {p n : Nat} (used : 0 < n) (past : 0x1000 < p + n) :
    outOfRange? p n = some (BitVec.ofNat 16 (max p Config.memSize)) := if_pos ⟨used, past⟩

theorem storeAtIndex_pastTop {s : State} {bs : List Byte} (used : 0 < bs.length)
    (past : 0x1000 < indexBase s + bs.length) :
    storeAtIndex bs s = .next (s.raise .memoryOutOfRange (faultInfo .memoryOutOfRange s)) := by
  rw [storeAtIndex, outOfRange?_pastTop used past]
  rfl

theorem execLdVxMem_pastTop {s : State} {x : Reg} (past : 0x1000 < indexBase s + (x.val + 1)) :
    execLdVxMem x s = .next (s.raise .memoryOutOfRange (faultInfo .memoryOutOfRange s)) := by
  rw [execLdVxMem, outOfRange?_pastTop x.val.succ_pos past]
  rfl

theorem execDrwVxVyN_pastTop {s : State} (x y : Reg) {n : BitVec 4} (used : 0 < n.toNat)
    (past : 0x1000 < indexBase s + n.toNat) :
    execDrwVxVyN x y n s = .next (s.raise .memoryOutOfRange (faultInfo .memoryOutOfRange s)) := by
  rw [execDrwVxVyN, outOfRange?_pastTop used past]
  rfl

theorem execSkpVx_noKey {s : State} {x : Reg} (h : 15 < s.v[x].toNat) :
    execSkpVx x s = .next (s.raise .keyIndexOutOfRange 0) := by
  rw [execSkpVx, State.getV_eq, (keyNumber?_none _).2 h]

theorem execSknpVx_noKey {s : State} {x : Reg} (h : 15 < s.v[x].toNat) :
    execSknpVx x s = .next (s.raise .keyIndexOutOfRange 0) := by
  rw [execSknpVx, State.getV_eq, (keyNumber?_none _).2 h]

/-- A fault of the table is recorded, with the instruction's own address, and nothing else happens (R202). -/
theorem exec_of_raises {i : Instr} {s : State} {reason : FaultReason} (h : raises i s = some reason) :
    exec i s = .next (s.raise reason (faultInfo reason s)) := by
  cases i with
  | call nnn =>
    obtain ⟨full, ⟨⟩⟩ := Option.ite_none_right_eq_some.1 h
    exact execCall_full nnn full
  | ret u =>
    obtain ⟨empty, ⟨⟩⟩ := Option.ite_none_right_eq_some.1 h
    exact execRet_empty u empty
  | drwVxVyN x y n =>
    obtain ⟨⟨used, past⟩, ⟨⟩⟩ := Option.ite_none_right_eq_some.1 h
    exact execDrwVxVyN_pastTop x y used (by simp only [indexBase]; omega)
  | ldBVx x =>
    obtain ⟨past, ⟨⟩⟩ := Option.ite_none_right_eq_some.1 h
    exact storeAtIndex_pastTop (by simp) (by simp only [indexBase, decimalDigits_length]; omega)
  | ldMemVx x =>
    obtain ⟨past, ⟨⟩⟩ := Option.ite_none_right_eq_some.1 h
    exact storeAtIndex_pastTop (by simp [State.firstRegs_length])
      (by simp only [indexBase, State.firstRegs_length]; omega)
  | ldVxMem x =>
    obtain ⟨past, ⟨⟩⟩ := Option.ite_none_right_eq_some.1 h
    exact execLdVxMem_pastTop (by simp only [indexBase]; omega)
  | skpVx x =>
    obtain ⟨noKey, ⟨⟩⟩ := Option.ite_none_right_eq_some.1 h
    exact execSkpVx_noKey noKey
  | sknpVx x =>
    obtain ⟨noKey, ⟨⟩⟩ := Option.ite_none_right_eq_some.1 h
    exact execSknpVx_noKey noKey
  | _ => cases h

/-! ### An instruction that completes -/

theorem raises_call_none {nnn : Imm12} {s : State} : raises (.call nnn) s = none ↔ s.sp.val < 16 := by
  have := s.sp.isLt
  simp only [raises, ite_eq_right_iff, reduceCtorEq, imp_false]
  omega

theorem raises_ret_none {u : BitVec 4} {s : State} : raises (.ret u) s = none ↔ 0 < s.sp.val := by
  simp only [raises, ite_eq_right_iff, reduceCtorEq, imp_false]
  omega

theorem raises_drwVxVyN_none {x y : Reg} {n : BitVec 4} {s : State} :
    raises (.drwVxVyN x y n) s = none ↔ n.toNat = 0 ∨ indexBase s + n.toNat ≤ 0x1000 := by
  simp only [raises, ite_eq_right_iff, reduceCtorEq, imp_false, indexBase]
  omega

theorem raises_ldBVx_none {x : Reg} {s : State} : raises (.ldBVx x) s = none ↔ indexBase s + 3 ≤ 0x1000 := by
  simp only [raises, ite_eq_right_iff, reduceCtorEq, imp_false, indexBase]
  omega

theorem raises_ldMemVx_none {x : Reg} {s : State} :
    raises (.ldMemVx x) s = none ↔ indexBase s + (x.val + 1) ≤ 0x1000 := by
  simp only [raises, ite_eq_right_iff, reduceCtorEq, imp_false, indexBase]
  omega

theorem raises_ldVxMem_none {x : Reg} {s : State} :
    raises (.ldVxMem x) s = none ↔ indexBase s + (x.val + 1) ≤ 0x1000 := raises_ldMemVx_none (x := x)

theorem raises_skpVx_none {x : Reg} {s : State} : raises (.skpVx x) s = none ↔ s.v[x].toNat ≤ 15 := by
  simp only [raises, ite_eq_right_iff, reduceCtorEq, imp_false, not_lt]

theorem raises_sknpVx_none {x : Reg} {s : State} : raises (.sknpVx x) s = none ↔ s.v[x].toNat ≤ 15 :=
  raises_skpVx_none

theorem execCall_room {s : State} (nnn : Imm12) (room : s.sp.val < 16) :
    execCall nnn s = .next (completed (.call nnn) s) := by
  have counted : (⟨s.sp.val + 1, by omega⟩ : Fin 17) = s.sp + 1 := by
    apply Fin.ext; rw [Fin.val_add_one_of_lt (Fin.lt_def.2 room)]
  have stored : s.stack.set s.sp.val s.pc room = s.stack.setIfInBounds s.sp.val s.pc :=
    Vector.ext fun j hj => by rw [Vector.getElem_set, Vector.getElem_setIfInBounds]
  simp [execCall, State.push?, room, completed, counted, stored, State.setPc]

theorem execRet_used {s : State} (u : BitVec 4) (used : 0 < s.sp.val) :
    execRet u s = .next (completed (.ret u) s) := by
  have counted : (⟨s.sp.val - 1, by omega⟩ : Fin 17) = s.sp - 1 := by
    apply Fin.ext; rw [Fin.val_sub_one_of_ne_zero (by rintro e; simp [e] at used)]
  simp [execRet, State.pop?, used, completed, counted, show s.sp.val - 1 < 16 by omega]

theorem keyNumber?_le {a : Byte} (h : a.toNat ≤ 15) : ∃ k, keyNumber? a = some k :=
  ⟨⟨a.toNat, by omega⟩, (keyNumber?_some _ _).2 rfl⟩

/-- Where the table gives no fault, the instruction completes. -/
theorem exec_of_not_raises {i : Instr} {s : State} (h : raises i s = none) : exec i s = .next (completed i s) := by
  cases i with
  | call nnn => exact execCall_room nnn (raises_call_none.1 h)
  | ret u => exact execRet_used u (raises_ret_none.1 h)
  | drwVxVyN x y n => exact execDrwVxVyN_inRange s x y n (raises_drwVxVyN_none.1 h)
  | ldBVx x => exact storeAtIndex_inRange s _ (raises_ldBVx_none.1 h)
  | ldMemVx x =>
    exact storeAtIndex_inRange s _ (by rw [State.firstRegs_length]; exact raises_ldMemVx_none.1 h)
  | ldVxMem x => exact execLdVxMem_inRange s x (raises_ldVxMem_none.1 h)
  | skpVx x =>
    obtain ⟨k, hk⟩ := keyNumber?_le (raises_skpVx_none.1 h)
    simp only [exec, execSkpVx, completed, State.getV_eq, hk, Option.any_some]
  | sknpVx x =>
    obtain ⟨k, hk⟩ := keyNumber?_le (raises_sknpVx_none.1 h)
    simp only [exec, execSknpVx, completed, State.getV_eq, hk, Option.any_some]
  | ldVxK x =>
    simp only [exec, execLdVxK, completed]
    cases s.lowestKey? <;> rfl
  | _ => rfl

/-- The two things an instruction can do. -/
theorem exec_next {i : Instr} {s t : State} (h : exec i s = .next t) :
    (∃ reason, raises i s = some reason ∧ t = s.raise reason (faultInfo reason s)) ∨
    (raises i s = none ∧ t = completed i s) := by
  cases hr : raises i s with
  | some reason => exact .inl ⟨reason, rfl, Host.Outcome.next.inj (h.symm.trans (exec_of_raises hr))⟩
  | none => exact .inr ⟨rfl, Host.Outcome.next.inj (h.symm.trans (exec_of_not_raises hr))⟩

/-! ### What every completed instruction leaves unchanged (R22, R25 to R31, R61) -/

/-- The key wait writes its register, or rewinds pc. -/
theorem completed_ldVxK (x : Reg) (s : State) :
    (∃ b, completed (.ldVxK x) s = s.setV x b) ∨ completed (.ldVxK x) s = s.setPc (s.pc - 2) := by
  unfold completed
  cases s.lowestKey? with
  | some k => exact .inl ⟨_, rfl⟩
  | none => exact .inr rfl

/-- What a write of the register and a rewind of pc both keep, the key wait keeps. -/
theorem completed_ldVxK_keeps {α : Type} (field : State → α) (x : Reg) (s : State)
    (atV : ∀ b, field (s.setV x b) = field s) (atPc : field (s.setPc (s.pc - 2)) = field s) :
    field (completed (.ldVxK x) s) = field s := by
  obtain ⟨b, e⟩ | e := completed_ldVxK x s
  · rw [e, atV]
  · rw [e, atPc]

/-- What a write of the screen and then of VF keeps, a draw keeps. -/
theorem completed_drwVxVyN_keeps {α : Type} (field : State → α) (x y : Reg) (n : BitVec 4) (s : State)
    (h : ∀ f b, field ((s.setFb f).setFlag b) = field s) : field (completed (.drwVxVyN x y n) s) = field s := h _ _

theorem completed_fault (i : Instr) (s : State) : (completed i s).fault = s.fault := by
  cases i with
  | ldVxK x => exact completed_ldVxK_keeps State.fault x s (fun _ => rfl) rfl
  | drwVxVyN x y n => exact completed_drwVxVyN_keeps State.fault x y n s fun _ _ => rfl
  | _ => rfl

theorem completed_opcode (i : Instr) (s : State) : (completed i s).opcode = s.opcode := by
  cases i with
  | ldVxK x => exact completed_ldVxK_keeps State.opcode x s (fun _ => rfl) rfl
  | drwVxVyN x y n => exact completed_drwVxVyN_keeps State.opcode x y n s fun _ _ => rfl
  | _ => rfl

theorem completed_mem {i : Instr} (s : State) (h : writesMem i = false) : (completed i s).mem = s.mem := by
  cases i with
  | ldBVx | ldMemVx => cases h
  | ldVxK x => exact completed_ldVxK_keeps State.mem x s (fun _ => rfl) rfl
  | drwVxVyN x y n => exact completed_drwVxVyN_keeps State.mem x y n s fun _ _ => rfl
  | _ => rfl

theorem completed_fb {i : Instr} (s : State) (h : writesFb i = false) : (completed i s).fb = s.fb := by
  cases i with
  | cls | drwVxVyN => cases h
  | ldVxK x => exact completed_ldVxK_keeps State.fb x s (fun _ => rfl) rfl
  | _ => rfl

theorem completed_index {i : Instr} (s : State) (h : writesIndex i = false) : (completed i s).index = s.index := by
  cases i with
  | ldINnn | addIVx | ldFVx => cases h
  | ldVxK x => exact completed_ldVxK_keeps State.index x s (fun _ => rfl) rfl
  | drwVxVyN x y n => exact completed_drwVxVyN_keeps State.index x y n s fun _ _ => rfl
  | _ => rfl

theorem completed_stack {i : Instr} (s : State) (h : usesStack i = false) : (completed i s).stack = s.stack := by
  cases i with
  | call | ret => cases h
  | ldVxK x => exact completed_ldVxK_keeps State.stack x s (fun _ => rfl) rfl
  | drwVxVyN x y n => exact completed_drwVxVyN_keeps State.stack x y n s fun _ _ => rfl
  | _ => rfl

theorem completed_sp {i : Instr} (s : State) (h : usesStack i = false) : (completed i s).sp = s.sp := by
  cases i with
  | call | ret => cases h
  | ldVxK x => exact completed_ldVxK_keeps State.sp x s (fun _ => rfl) rfl
  | drwVxVyN x y n => exact completed_drwVxVyN_keeps State.sp x y n s fun _ _ => rfl
  | _ => rfl

theorem completed_dt {i : Instr} (s : State) (h : ∀ x, i ≠ .ldDtVx x) : (completed i s).dt = s.dt := by
  cases i with
  | ldDtVx x => exact absurd rfl (h x)
  | ldVxK x => exact completed_ldVxK_keeps State.dt x s (fun _ => rfl) rfl
  | drwVxVyN x y n => exact completed_drwVxVyN_keeps State.dt x y n s fun _ _ => rfl
  | _ => rfl

theorem completed_st {i : Instr} (s : State) (h : ∀ x, i ≠ .ldStVx x) : (completed i s).st = s.st := by
  cases i with
  | ldStVx x => exact absurd rfl (h x)
  | ldVxK x => exact completed_ldVxK_keeps State.st x s (fun _ => rfl) rfl
  | drwVxVyN x y n => exact completed_drwVxVyN_keeps State.st x y n s fun _ _ => rfl
  | _ => rfl

theorem completed_draws {i : Instr} (s : State) (h : ∀ x kk, i ≠ .rndVxKk x kk) :
    (completed i s).draws = s.draws := by
  cases i with
  | rndVxKk x kk => exact absurd rfl (h x kk)
  | ldVxK x => exact completed_ldVxK_keeps State.draws x s (fun _ => rfl) rfl
  | drwVxVyN x y n => exact completed_drwVxVyN_keeps State.draws x y n s fun _ _ => rfl
  | _ => rfl

/-- A skip moves pc by 2 or not at all. -/
theorem State.skipIf_pc_or (s : State) (c : Bool) : (s.skipIf c).pc = s.pc ∨ (s.skipIf c).pc = s.pc + 2 := by
  cases c with
  | false => exact .inl rfl
  | true => exact .inr rfl

/-- pc after a completed instruction that does not jump (R23). -/
theorem completed_pc {i : Instr} (s : State) (h : jumps i = false) :
    (completed i s).pc = s.pc ∨ (skips i = true ∧ (completed i s).pc = s.pc + 2) ∨
    (∃ x, i = .ldVxK x ∧ (completed i s).pc = s.pc - 2) := by
  cases i with
  | jp | call | ret | jpV0Nnn => cases h
  | seVxKk | sneVxKk | seVxVy | sneVxVy | skpVx | sknpVx =>
    exact (State.skipIf_pc_or s _).imp id fun moved => .inl ⟨rfl, moved⟩
  | drwVxVyN x y n => exact .inl (completed_drwVxVyN_keeps State.pc x y n s fun _ _ => rfl)
  | ldVxK x =>
    obtain ⟨b, e⟩ | e := completed_ldVxK x s
    · exact .inl (by rw [e, State.setV_pc])
    · exact .inr (.inr ⟨x, rfl, by rw [e, State.setPc_pc]⟩)
  | _ => exact .inl rfl

/-- The registers that the list of R22 does not name for the instruction keep their values. -/
theorem completed_v {i : Instr} (s : State) {r : Reg} (h : ¬ writesReg i r) : (completed i s).v[r] = s.v[r] := by
  cases i with
  | ldVxKk x | addVxKk x | rndVxKk x | ldVxDt x | ldVxVy x | orVxVy x | andVxVy x | xorVxVy x =>
    exact s.setV_other x r _ h
  | addVxVy x | subVxVy x | subnVxVy x =>
    exact (s.setV_setFlag_onlyRegs x _ _).2 r (by simpa [writesReg] using h)
  | shrVx x | shlVx x => exact (s.setFlag_setV_onlyRegs x _ _).2 r (by simpa [writesReg] using h)
  | drwVxVyN x y n =>
    exact completed_drwVxVyN_keeps (fun t => t.v[r]) x y n s fun f b => State.setV_other (s.setFb f) _ r b h
  | ldVxMem x =>
    have above : x.val + 1 ≤ r.val := Nat.lt_of_not_le h
    exact (s.loadRegs_get _ r).trans (readBlock_getD_beyond _ _ _ _ _ above)
  | ldVxK x =>
    exact completed_ldVxK_keeps (fun t => t.v[r]) x s (fun b => s.setV_other x r b h) rfl
  | _ => rfl

/-! ### The statements about every instruction and every step -/

/-- Settles O44: a fault writes no register, and a completed instruction only those of the list. -/
theorem registersWrittenOnlyAsListed : Obligations.RegistersWrittenOnlyAsListed := by
  intro i s t r h unlisted
  obtain ⟨_, -, rfl⟩ | ⟨-, rfl⟩ := exec_next h
  · rfl
  · exact completed_v s unlisted

/-- Settles O46: a fault leaves pc, and a completed instruction moves it as `completed_pc` says. -/
theorem pcChangesOnlyAsListed : Obligations.PcChangesOnlyAsListed := by
  intro i s t h notJump
  obtain ⟨_, -, rfl⟩ | ⟨-, rfl⟩ := exec_next h
  · exact .inl rfl
  · exact completed_pc s notJump

/-- The instruction that draws a random byte raises no fault, so it draws exactly one; no other draws. -/
theorem exec_draws {i : Instr} {s t : State} (h : exec i s = .next t) :
    (∃ x kk, i = .rndVxKk x kk) ∧ t.draws = s.draws + 1 ∨ (¬ ∃ x kk, i = .rndVxKk x kk) ∧ t.draws = s.draws := by
  by_cases rnd : ∃ x kk, i = .rndVxKk x kk
  · obtain ⟨x, kk, rfl⟩ := rnd
    obtain rfl := Host.Outcome.next.inj h
    exact .inl ⟨⟨x, kk, rfl⟩, rfl⟩
  · refine .inr ⟨rnd, ?_⟩
    obtain ⟨_, -, rfl⟩ | ⟨-, rfl⟩ := exec_next h
    · rfl
    · exact completed_draws s fun x kk e => rnd ⟨x, kk, e⟩

/-- Settles O45: a fault writes none of these fields; a completed instruction keeps each that is not its own. -/
theorem stateWrittenOnlyByItsInstructions : Obligations.StateWrittenOnlyByItsInstructions := by
  intro i s t h
  have draws : (t.draws = s.draws + 1 ↔ ∃ x kk, i = .rndVxKk x kk) ∧
      (t.draws = s.draws ∨ t.draws = s.draws + 1) := by
    obtain ⟨rnd, e⟩ | ⟨notRnd, e⟩ := exec_draws h <;> simp [*]
  have keys : t.key = s.key := exec_key h
  obtain ⟨_, -, rfl⟩ | ⟨-, rfl⟩ := exec_next h
  · exact ⟨fun _ => rfl, fun _ => rfl, fun _ => rfl, fun _ => ⟨rfl, rfl⟩, keys, rfl, draws⟩
  · exact ⟨completed_mem s, completed_fb s, completed_index s,
      fun quiet => ⟨completed_stack s quiet, completed_sp s quiet⟩, keys, completed_opcode i s, draws⟩

/-- Settles O8: in a state without a fault, `exec` raises what the table says or completes and records none. -/
theorem faultsExactlyAsTabulated : Obligations.FaultsExactlyAsTabulated := by
  intro i s t noFault h
  obtain ⟨reason, raised, rfl⟩ | ⟨notRaised, rfl⟩ := exec_next h
  · rw [raised, State.raise_fault, Option.map_some]
  · rw [notRaised, completed_fault, noFault, Option.map_none]

end Sys2Proof.Machine
end

section
/-! The cycle and the host's operations (40_cycle.md R90 to R95, 60_exceptions.md): every one answers a next state, what
stops a fetch, what a fault leaves, and which cycles change a timer. -/

namespace Sys2Proof.Machine

/-! ### A cycle that does not fetch -/

theorem step_of_fault {s : State} {r : FaultRecord} (h : s.fault = some r) : step s = .next s := by
  rw [step, h, Option.isSome_some, if_pos rfl]

theorem step_of_fetchFault {s : State} {reason : FaultReason} {info : Word} (noFault : s.fault = none)
    (h : fetchFault? s.pc = some (reason, info)) : step s = .next (s.takeFault reason s.pc info) := by
  simp [step, noFault, h]

theorem fetchFault?_odd {a : Word} (odd : a.toNat % 2 = 1) : fetchFault? a = some (.misalignedFetch, 0) := if_pos odd

theorem fetchFault?_pastTop {a : Word} (even : a.toNat % 2 = 0) (past : 0xFFE < a.toNat) :
    fetchFault? a = some (.memoryOutOfRange, a) := by
  rw [fetchFault?, if_neg (by omega), if_pos past]

/-- A cycle from an odd pc records MisalignedFetch and changes nothing else (R91). -/
theorem step_odd {s : State} (noFault : s.fault = none) (odd : s.pc.toNat % 2 = 1) :
    step s = .next { s with fault := some ⟨.misalignedFetch, s.pc, 0⟩ } :=
  step_of_fetchFault noFault (fetchFault?_odd odd)

/-- A cycle from an even pc above 0xFFE records MemoryOutOfRange and changes nothing else (R91). -/
theorem step_pastTop {s : State} (noFault : s.fault = none) (even : s.pc.toNat % 2 = 0) (past : 0xFFE < s.pc.toNat) :
    step s = .next { s with fault := some ⟨.memoryOutOfRange, s.pc, s.pc⟩ } :=
  step_of_fetchFault noFault (fetchFault?_pastTop even past)

/-- Settles O5: an odd pc and an even pc above 0xFFE each fail their own fetch check. -/
theorem fetchChecksFault : Obligations.FetchChecksFault :=
  fun _ noFault => ⟨step_odd noFault, step_pastTop noFault⟩

/-! ### Totality -/

/-- Every instruction answers a next state: it raises the fault of the table or completes. -/
theorem exec_total (i : Instr) (s : State) : ∃ t, exec i s = .next t := by
  cases h : raises i s with
  | some reason => exact ⟨_, exec_of_raises h⟩
  | none => exact ⟨_, exec_of_not_raises h⟩

theorem step_total (s : State) : ∃ t, step s = .next t := by
  cases hf : s.fault with
  | some r => exact ⟨s, step_of_fault hf⟩
  | none =>
    cases hp : fetchFault? s.pc with
    | some q => exact ⟨_, step_of_fetchFault hf hp⟩
    | none =>
      rw [step_of_canFetch ((canFetch_iff s).2 ⟨hf, hp⟩)]
      exact exec_total _ _

/-- The host's `cycle` is one step. -/
theorem hostOp_cycle {s t : State} (h : step s = .next t) : hostOp .cycle s = .next (t, .nothing) := by
  rw [hostOp, h]

theorem hostOp_total (op : HostOp) (s : State) : ∃ t res, hostOp op s = .next (t, res) := by
  cases op with
  | cycle =>
    obtain ⟨t, h⟩ := step_total s
    exact ⟨t, _, hostOp_cycle h⟩
  | _ => exact ⟨_, _, rfl⟩

/-- Settles O6: halted, stopped at a fetch check or executing, a cycle answers a next state; so do the host's other
operations, by their definition. -/
theorem everyStepAnswersNext : Obligations.EveryStepAnswersNext := ⟨step_total, hostOp_total⟩

/-! ### What a host operation can do -/

/-- Every host operation is a cycle, a tick, a key change, a load or leaves the state. -/
theorem hostOp_next {op : HostOp} {s t : State} {res : HostResult} (h : hostOp op s = .next (t, res)) :
    (op = .cycle ∧ step s = .next t) ∨ (op = .tickTimers ∧ t = tickTimers s) ∨
    (∃ k p, op = .setKey k p ∧ t = s.putKey k p) ∨ (∃ bytes, op = .load bytes ∧ t = (loadImage bytes s).2) ∨ t = s := by
  cases op with
  | cycle =>
    obtain ⟨u, hu⟩ := step_total s
    rw [hostOp_cycle hu] at h
    cases h
    exact .inl ⟨rfl, hu⟩
  | tickTimers => cases h; exact .inr (.inl ⟨rfl, rfl⟩)
  | setKey k p => cases h; exact .inr (.inr (.inl ⟨k, p, rfl, rfl⟩))
  | load bytes => cases h; exact .inr (.inr (.inr (.inl ⟨bytes, rfl, rfl⟩)))
  | framebuffer | soundActive | faultStatus => cases h; exact .inr (.inr (.inr (.inr rfl)))

theorem loadImage_of_fits {bytes : List Byte} {s : State} (h : bytes.length ≤ Config.maxImage) :
    loadImage bytes s = (.ok, s.setMem (writeBlock s.mem Config.progBase bytes)) := if_neg (Nat.not_lt.2 h)

/-- A load leaves the state, or writes a block that ends inside memory. -/
theorem loadImage_state (bytes : List Byte) (s : State) :
    (loadImage bytes s).2 = s ∨ bytes.length ≤ Config.maxImage ∧
      (loadImage bytes s).2 = s.setMem (writeBlock s.mem Config.progBase bytes) := by
  by_cases h : bytes.length ≤ Config.maxImage
  · exact .inr ⟨h, by rw [loadImage_of_fits h]⟩
  · exact .inl (by rw [loadImage_of_too_large (Nat.not_le.1 h)])

/-- Settles O4: a halted core's cycle is the identity, and no other host operation writes the fault register. -/
theorem recordedFaultHaltsAndStays : Obligations.RecordedFaultHaltsAndStays := by
  intro s r hf
  refine ⟨step_of_fault hf, fun op t res h => ?_⟩
  obtain ⟨-, halted⟩ | ⟨-, rfl⟩ | ⟨k, p, -, rfl⟩ | ⟨bytes, -, rfl⟩ | rfl := hostOp_next h
  · rw [step_of_fault hf] at halted
    rwa [← Host.Outcome.next.inj halted]
  · exact hf
  · rwa [State.putKey_fault]
  · obtain e | ⟨-, e⟩ := loadImage_state bytes s <;> rw [e] <;> exact hf
  · exact hf

/-! ### A cycle that fetches -/

/-- Settles O3: the two bytes at pc form the word that the fetch latches, and `decode` of them is its decoding. -/
theorem stepRunsDecodedInstruction : Obligations.StepRunsDecodedInstruction := by
  intro s i w fetchable bigEndian decoded
  have latched : w = fetchWord s.mem s.pc :=
    BitVec.eq_of_toNat_eq (bigEndian.trans (wordOfBytes_toNat _ _).symm)
  have decodedWord : decodeWord (fetchWord s.mem s.pc) = i := by
    rw [decode_cons_cons] at decoded
    exact congrArg Prod.fst (Except.ok.inj decoded)
  rw [step_of_canFetch fetchable, decodedWord, latched, State.fetched_eq]

theorem State.fetched_fault (s : State) : s.fetched.fault = s.fault := rfl

theorem State.fetched_pc_sub (s : State) : s.fetched.pc - 2 = s.pc := BitVec.add_sub_cancel s.pc 2

/-- Settles O7: a fault at the fetch checks is recorded from the state itself; one in execute from the fetched state,
whose pc is 2 more; and a completed instruction records none. -/
theorem faultsArePrecise : Obligations.FaultsArePrecise := by
  intro s t r noFault h recorded
  obtain ⟨r', hf, -⟩ | ⟨-, reason, info, check, rfl⟩ | ⟨fetchable, executed⟩ := step_next h
  · rw [noFault] at hf
    cases hf
  · obtain rfl := Option.some.inj recorded
    refine ⟨rfl, fun fetchable => ?_, fun _ => rfl⟩
    rw [((canFetch_iff s).1 fetchable).2] at check
    cases check
  · obtain ⟨reason, -, rfl⟩ | ⟨-, rfl⟩ := exec_next executed
    · obtain rfl := Option.some.inj recorded
      exact ⟨s.fetched_pc_sub, fun _ => rfl, fun stopped => absurd fetchable stopped⟩
    · rw [completed_fault, State.fetched_fault, noFault] at recorded
      cases recorded

/-! ### Timers (60_exceptions.md R208) -/

theorem tickDown_toNat (b : Byte) : (tickDown b).toNat = b.toNat - 1 := by
  unfold tickDown
  split
  · next running => exact BitVec.toNat_sub_of_le (BitVec.le_def.2 (Nat.succ_le_of_lt running))
  · omega

theorem exec_dt {i : Instr} {s t : State} (h : exec i s = .next t) (hi : ∀ x, i ≠ .ldDtVx x) : t.dt = s.dt := by
  obtain ⟨_, -, rfl⟩ | ⟨-, rfl⟩ := exec_next h
  · rfl
  · exact completed_dt s hi

theorem exec_st {i : Instr} {s t : State} (h : exec i s = .next t) (hi : ∀ x, i ≠ .ldStVx x) : t.st = s.st := by
  obtain ⟨_, -, rfl⟩ | ⟨-, rfl⟩ := exec_next h
  · rfl
  · exact completed_st s hi

/-- A cycle that changes the delay timer ran Fx15, one that changes the sound timer ran Fx18. -/
theorem step_timers {s t : State} (h : step s = .next t) :
    (t.dt ≠ s.dt → ∃ x, decodeWord (fetchWord s.mem s.pc) = .ldDtVx x) ∧
    (t.st ≠ s.st → ∃ x, decodeWord (fetchWord s.mem s.pc) = .ldStVx x) := by
  obtain ⟨_, -, rfl⟩ | ⟨-, _, _, -, rfl⟩ | ⟨-, executed⟩ := step_next h
  · exact ⟨absurd rfl, absurd rfl⟩
  · exact ⟨absurd rfl, absurd rfl⟩
  · constructor
    · intro changed
      by_contra other
      have kept : t.dt = s.fetched.dt := exec_dt executed (not_exists.1 other)
      exact changed kept
    · intro changed
      by_contra other
      have kept : t.st = s.fetched.st := exec_st executed (not_exists.1 other)
      exact changed kept

/-- Settles O40: a tick counts each timer down by its own equation, a cycle writes a timer only by Fx15 or Fx18, and the
other host operations write neither. -/
theorem onlyTicksCountTimersDown : Obligations.OnlyTicksCountTimersDown := by
  refine ⟨fun s => ⟨_, rfl, tickDown_toNat s.dt, tickDown_toNat s.st, rfl⟩, fun s t => step_timers,
    fun op s t res h notCycle notTick => ?_⟩
  obtain ⟨isCycle, -⟩ | ⟨isTick, -⟩ | ⟨k, p, -, rfl⟩ | ⟨bytes, -, rfl⟩ | rfl := hostOp_next h
  · exact absurd isCycle notCycle
  · exact absurd isTick notTick
  · exact ⟨rfl, rfl⟩
  · obtain e | ⟨-, e⟩ := loadImage_state bytes s <;> rw [e] <;> exact ⟨rfl, rfl⟩
  · exact ⟨rfl, rfl⟩

/-! ### Keys and views (10_state.md R40 to R43) -/

/-- A key reads back as it was set. -/
theorem State.putKey_same (s : State) (k : Fin 16) (p : Bool) : (s.putKey k p).key[k] = p := by
  rw [State.putKey_key, Fin.getElem_fin, Vector.getElem_set_self]

theorem State.putKey_other (s : State) {k j : Fin 16} (p : Bool) (h : j ≠ k) : (s.putKey k p).key[j] = s.key[j] := by
  simp only [State.putKey_key, Fin.getElem_fin]
  exact Vector.getElem_set_ne _ _ fun e => h (Fin.ext e.symm)

/-- Settles O43: `setKey` is one key write; the views answer a field, or whether ST is above 0. -/
theorem keyInputAndHostViews : Obligations.KeyInputAndHostViews := fun s k p =>
  ⟨⟨_, rfl, s.putKey_same k p, fun _ => s.putKey_other p, rfl⟩, rfl, rfl, _, rfl, decide_eq_true_iff⟩

end Sys2Proof.Machine
end

section
/-! The invariant (10_state.md sections 2, 5 and 9): it holds after reset, and a cycle and every other operation of the
host keep it. -/

namespace Sys2Proof.Machine

/-! ### The fault record of an instruction -/

/-- Only the fetch checks record MisalignedFetch (R201). -/
theorem raises_ne_misalignedFetch {i : Instr} {s : State} {reason : FaultReason} (h : raises i s = some reason) :
    reason ≠ .misalignedFetch := by
  cases i with
  | call | ret | drwVxVyN | ldBVx | ldMemVx | ldVxMem | skpVx | sknpVx =>
    obtain ⟨-, ⟨⟩⟩ := Option.ite_none_right_eq_some.1 h
    exact nofun
  | _ => cases h

theorem faultInfo_memoryOutOfRange (s : State) :
    (faultInfo .memoryOutOfRange s).toNat = max (indexBase s) 0x1000 := by
  have := indexBase_lt s
  simp only [faultInfo, Config.memSize, BitVec.toNat_ofNat]
  omega

theorem faultInfo_other {reason : FaultReason} (s : State) (h : reason ≠ .memoryOutOfRange) :
    faultInfo reason s = 0 := by
  cases reason with
  | memoryOutOfRange => exact absurd rfl h
  | _ => rfl

/-- The advance and the skip add 2 mod 65536 (R93, D22). -/
theorem word_add_two_toNat (a : Word) : (a + 2).toNat = (a.toNat + 2) % 65536 := BitVec.toNat_add a 2

/-- Where execute starts: pc is 2 past the address of an instruction that could be fetched (R91, R93). -/
def AfterFetch (s : State) : Prop := ReturnAddress s.pc ∧ 2 ≤ s.pc.toNat

theorem fetched_afterFetch {s : State} (h : CanFetch s) : AfterFetch s.fetched := by
  obtain ⟨-, even, inMemory⟩ := h
  have advanced : s.fetched.pc.toNat = s.pc.toNat + 2 := by
    rw [State.fetched_pc, word_add_two_toNat]
    omega
  unfold AfterFetch ReturnAddress
  omega

theorem AfterFetch.pc_sub {s : State} (h : AfterFetch s) : (s.pc - 2).toNat = s.pc.toNat - 2 :=
  BitVec.toNat_sub_of_le (BitVec.le_def.2 h.2)

/-- A fault raised in execute is one that the spec describes (R33). -/
theorem raise_sound {i : Instr} {s : State} {reason : FaultReason} (fetched : AfterFetch s)
    (h : raises i s = some reason) : FaultRecord.Sound ⟨reason, s.pc - 2, faultInfo reason s⟩ := by
  have notFetch := raises_ne_misalignedFetch h
  have address := fetched.pc_sub
  obtain ⟨⟨top, even⟩, -⟩ := fetched
  refine ⟨fun e => ?_, faultInfo_other s, iff_of_false notFetch ?_, fun _ _ => ?_⟩
  · obtain rfl : reason = .memoryOutOfRange := e
    rw [faultInfo_memoryOutOfRange]
    omega
  · rw [address]
    omega
  · rw [address]
    omega

/-- A fault at the fetch checks is one that the spec describes (R33, R91). -/
theorem takeFault_sound {a info : Word} {reason : FaultReason} (h : fetchFault? a = some (reason, info)) :
    FaultRecord.Sound ⟨reason, a, info⟩ := by
  obtain ⟨odd, rfl, rfl⟩ | ⟨even, past, rfl, rfl⟩ := fetchFault?_some h
  · exact ⟨nofun, fun _ => rfl, iff_of_true rfl odd, fun ne => absurd rfl ne⟩
  · refine ⟨fun _ => ?_, fun ne => absurd rfl ne, iff_of_false nofun ?_, fun _ ne => absurd rfl ne⟩
    · change 0xFFF < info.toNat
      omega
    · change ¬ info.toNat % 2 = 1
      omega

/-! ### A completed instruction -/

/-- The two instructions that write memory do so inside it, so the canonical form stays. -/
theorem completed_mem_wf {i : Instr} {s : State} (hm : Memory.wf s.mem) (h : raises i s = none) :
    Memory.wf (completed i s).mem := by
  cases hw : writesMem i with
  | false => rwa [completed_mem s hw]
  | true =>
    cases i with
    | ldBVx x => exact writeBlock_wf _ _ _ hm (raises_ldBVx_none.1 h)
    | ldMemVx x =>
      exact writeBlock_wf _ _ _ hm (by rw [State.firstRegs_length]; exact raises_ldMemVx_none.1 h)
    | _ => cases hw

/-- Every jump target is at most 0x10FE: 12 bits, 12 bits plus a byte, or a return address; and a skip from the top of
memory ends at 0x1002 (R23). -/
theorem completed_pc_le {i : Instr} {s : State} (hs : ∀ j : Fin 16, ReturnAddress s.stack[j]) (fetched : AfterFetch s)
    (h : raises i s = none) : (completed i s).pc.toNat ≤ 0x10FE := by
  have rewound := fetched.pc_sub
  obtain ⟨⟨top, -⟩, -⟩ := fetched
  cases hj : jumps i with
  | false =>
    obtain e | ⟨-, e⟩ | ⟨_, -, e⟩ := completed_pc s hj <;> rw [e]
    · omega
    · rw [word_add_two_toNat]
      omega
    · omega
  | true =>
    cases i with
    | jp nnn | call nnn =>
      have := nnn.isLt
      exact (absolute_toNat nnn).trans_le (by omega)
    | jpV0Nnn nnn =>
      have := nnn.isLt
      have := s.v[(0 : Reg)].isLt
      exact (absolutePlusV0_toNat s nnn).trans_le (by omega)
    | ret u =>
      have used := raises_ret_none.1 h
      have entry : s.stack[s.sp.val - 1]?.getD 0 = s.stack[(⟨s.sp.val - 1, by omega⟩ : Fin 16)] := by
        simp [show s.sp.val - 1 < 16 by omega]
      obtain ⟨inMemory, -⟩ := hs ⟨s.sp.val - 1, by omega⟩
      change (s.stack[s.sp.val - 1]?.getD 0).toNat ≤ _
      rw [entry]
      omega
    | _ => cases hj

/-- CALL writes pc, a return address, into its entry; nothing else writes an entry (R26, R103). -/
theorem completed_stack_ok {i : Instr} {s : State} (hs : ∀ j : Fin 16, ReturnAddress s.stack[j])
    (hpc : ReturnAddress s.pc) (j : Fin 16) : ReturnAddress (completed i s).stack[j] := by
  cases hu : usesStack i with
  | false =>
    rw [completed_stack s hu]
    exact hs j
  | true =>
    cases i with
    | call nnn =>
      change ReturnAddress (s.stack.setIfInBounds s.sp.val s.pc)[j.val]
      rw [Vector.getElem_setIfInBounds]
      split
      · exact hpc
      · exact hs j
    | ret u => exact hs j
    | _ => cases hu

/-! ### Execute, cycle and host -/

/-- Execute keeps the invariant. -/
theorem exec_keeps_inv {i : Instr} {s t : State} (inv : Inv s) (noFault : s.fault = none) (fetched : AfterFetch s)
    (h : exec i s = .next t) : Inv t := by
  obtain ⟨reason, raised, rfl⟩ | ⟨notRaised, rfl⟩ := exec_next h
  · exact ⟨inv.mem_wf, inv.pc_le, inv.stack_ok, fun r recorded => Option.some.inj recorded ▸ raise_sound fetched raised⟩
  · refine ⟨completed_mem_wf inv.mem_wf notRaised, completed_pc_le inv.stack_ok fetched notRaised,
      completed_stack_ok inv.stack_ok fetched.1, fun r recorded => ?_⟩
    rw [completed_fault, noFault] at recorded
    cases recorded

/-- The fetch keeps the invariant. -/
theorem fetched_inv {s : State} (inv : Inv s) (h : CanFetch s) : Inv s.fetched := by
  obtain ⟨⟨top, -⟩, -⟩ := fetched_afterFetch h
  exact ⟨inv.mem_wf, by omega, inv.stack_ok, inv.fault_ok⟩

/-- Settles O48: a halted cycle changes nothing, one stopped at a fetch check records a sound fault, and otherwise both
the fetch and execute keep the invariant. -/
theorem stepKeepsInvariant : Obligations.StepKeepsInvariant := by
  intro s t inv h
  obtain ⟨_, -, rfl⟩ | ⟨-, reason, info, check, rfl⟩ | ⟨fetchable, executed⟩ := step_next h
  · exact inv
  · exact ⟨inv.mem_wf, inv.pc_le, inv.stack_ok, fun r recorded => Option.some.inj recorded ▸ takeFault_sound check⟩
  · exact exec_keeps_inv (fetched_inv inv fetchable) fetchable.1 (fetched_afterFetch fetchable) executed

/-- A load ends at the top of memory or below it, so the canonical form stays (R62). -/
theorem loadImage_keeps_inv (bytes : List Byte) {s : State} (inv : Inv s) : Inv (loadImage bytes s).2 := by
  obtain e | ⟨fits, e⟩ := loadImage_state bytes s <;> rw [e]
  · exact inv
  · refine ⟨writeBlock_wf _ _ _ inv.mem_wf ?_, inv.pc_le, inv.stack_ok, inv.fault_ok⟩
    simp only [Config.maxImage, Config.memSize, Config.progBase] at fits ⊢
    omega

theorem hostOp_keeps_inv {op : HostOp} {s t : State} {res : HostResult} (inv : Inv s)
    (h : hostOp op s = .next (t, res)) : Inv t := by
  obtain ⟨-, cycled⟩ | ⟨-, rfl⟩ | ⟨k, p, -, rfl⟩ | ⟨bytes, -, rfl⟩ | rfl := hostOp_next h
  · exact stepKeepsInvariant s t inv cycled
  · exact ⟨inv.mem_wf, inv.pc_le, inv.stack_ok, inv.fault_ok⟩
  · exact ⟨inv.mem_wf, inv.pc_le, inv.stack_ok, inv.fault_ok⟩
  · exact loadImage_keeps_inv bytes inv
  · exact inv

/-- A run of operations is its first one and the run of the rest. -/
theorem runHost_cons {op : HostOp} {ops : List HostOp} {s u : State} {rs : List HostResult}
    (h : runHost (op :: ops) s = .next (u, rs)) :
    ∃ t r rs', hostOp op s = .next (t, r) ∧ runHost ops t = .next (u, rs') := by
  obtain ⟨t, r, first⟩ := hostOp_total op s
  refine ⟨t, r, ?_⟩
  simp only [runHost, first] at h
  cases rest : runHost ops t with
  | next q =>
    obtain ⟨u', rs'⟩ := q
    simp only [rest, Host.Outcome.next.injEq, Prod.mk.injEq] at h
    exact ⟨rs', first, by rw [h.1]⟩
  | fault e => simp [rest] at h
  | refused e => simp [rest] at h

/-- Settles O49, by induction on the list of operations. -/
theorem hostRunsKeepInvariant : Obligations.HostRunsKeepInvariant := by
  intro ops
  induction ops with
  | nil =>
    intro s t res inv h
    cases h
    exact inv
  | cons op ops ih =>
    intro s u res inv h
    obtain ⟨t, r, rs, first, rest⟩ := runHost_cons h
    exact ih t u rs (hostOp_keeps_inv inv first) rest

/-- Settles O47: memory after reset lists no cell, pc is 0x200, every stack entry is 0 and no fault is recorded. -/
theorem invariantAtReset : Obligations.InvariantAtReset := by
  refine ⟨Memory.wf_nil, by decide, fun j => ?_, nofun⟩
  have entry : State.reset.stack[j] = 0 := Vector.getElem_replicate _
  rw [entry]
  exact ⟨by decide, by decide⟩

end Sys2Proof.Machine
end

section
/-! The decoder and the encoder (30_encoding.md): the two round trips, the row of the opcode map that a word chooses, and
the no-op space. -/

namespace Sys2Proof

/-! ### Decoding an encoded instruction -/

@[simp] theorem xField_formatXKK (op x : BitVec 4) (kk : Byte) : xField (formatXKK op x kk) = x.toFin := by
  rw [xField_eq, nibble2_formatXKK]

@[simp] theorem xField_formatXYN (op x y n : BitVec 4) : xField (formatXYN op x y n) = x.toFin := by
  rw [xField_eq, nibble2_formatXYN]
/-- The eight bits that family 8's fallback ignores, taken back from a word built of them. -/
theorem midByte_formatXYN (op n : BitVec 4) (u : Byte) :
    midByte (formatXYN op (u.extractLsb' 4 4) (u.extractLsb' 0 4) n) = u := by
  apply BitVec.eq_of_getLsbD_eq; intro k hk
  rw [getLsbD_midByte, getLsbD_formatXYN]
  by_cases h : k < 4
  · simp [h, hk, show 4 + k < 8 by omega]
  · simp [hk, show ¬ 4 + k < 8 by omega, show 4 + k < 12 by omega,
      show 4 + k - 8 < 4 by omega, show 4 + (4 + k - 8) = k by omega]

/-- The selectors of the instruction's row, read back from its word, pick its constructor; a fallback is reached because
a well-formed term holds no selector of its family. -/
theorem decodeWord_encode {i : Instr} (h : i.wf = true) : decodeWord (encode i) = i := by
  cases i with
  | sys nnn =>
    simp [Instr.wf, selectors0] at h
    simp [encode, decodeWord, decodeFamily0, h]
  | nop8 u n =>
    simp [Instr.wf, selectors8] at h
    simp [encode_nop8, decodeWord, decodeFamily8, h, midByte_formatXYN]
  | nopE u kk =>
    simp [Instr.wf, selectorsE] at h
    simp [encode, decodeWord, decodeFamilyE, h]
  | nopF u kk =>
    simp [Instr.wf, selectorsF] at h
    simp [encode, decodeWord, decodeFamilyF, h]
  | cls | ret => simp [encode, decodeWord, decodeFamily0]
  | skpVx | sknpVx => simp [encode, decodeWord, decodeFamilyE]
  | ldVxVy | orVxVy | andVxVy | xorVxVy | addVxVy | subVxVy | shrVx | subnVxVy | shlVx =>
    simp [encode, decodeWord, decodeFamily8]
  | ldVxDt | ldVxK | ldDtVx | ldStVx | addIVx | ldFVx | ldBVx | ldMemVx | ldVxMem =>
    simp [encode, decodeWord, decodeFamilyF]
  | _ => simp [encode, decodeWord]

/-- Settles O51: the two bytes of the instruction's word decode as that word, and the word as the instruction. -/
theorem decodeOfEncodeIsInstruction : Obligations.DecodeOfEncodeIsInstruction := by
  intro i rest wellFormed
  rw [decode_bytesOfWord, decodeWord_encode wellFormed]

/-! ### Encoding a decoded word -/

theorem formatNNN_of_fields {w : Word} {op : BitVec 4} (h : opField w = op) : formatNNN op (nnnField w) = w := by
  rw [← h, formatNNN_fields]

theorem formatXKK_of_fields {w : Word} {op : BitVec 4} {kk : Byte} (h : opField w = op) (hk : kkField w = kk) :
    formatXKK op (nibble2 w) kk = w := by
  rw [← h, ← hk, formatXKK_fields]

theorem formatXYN_of_fields {w : Word} {op n : BitVec 4} (h : opField w = op) (hn : nField w = n) :
    formatXYN op (nibble2 w) (w.extractLsb' 4 4) n = w := by
  rw [← h, ← hn, formatXYN_fields]

/-- The two nibbles of the bits that family 8's fallback ignores. -/
theorem midByte_nibbles (w : Word) :
    (midByte w).extractLsb' 4 4 = nibble2 w ∧ (midByte w).extractLsb' 0 4 = w.extractLsb' 4 4 := by
  constructor <;> apply BitVec.eq_of_getLsbD_eq <;> intro k hk
  · rw [BitVec.getLsbD_extractLsb', getLsbD_midByte, getLsbD_nibble2]
    simp [show 4 + k < 8 by omega, ← Nat.add_assoc]
  · rw [BitVec.getLsbD_extractLsb', BitVec.getLsbD_extractLsb', getLsbD_midByte]
    simp [hk, show k < 8 by omega]

theorem kkField_nnnField (w : Word) : (nnnField w).extractLsb' 0 8 = kkField w := by
  apply BitVec.eq_of_getLsbD_eq; intro k hk
  rw [BitVec.getLsbD_extractLsb', getLsbD_nnnField, getLsbD_kkField]
  simp [hk, show k < 12 by omega]

/-- The instruction is well formed and its word is w. -/
def StandsFor (i : Instr) (w : Word) : Prop := i.wf = true ∧ encode i = w

/-- One step of a dispatch: both branches stand for the word. -/
theorem standsFor_ite {c : Prop} [Decidable c] {i j : Instr} {w : Word} (hi : c → StandsFor i w)
    (hj : ¬ c → StandsFor j w) : StandsFor (if c then i else j) w := by
  split
  · exact hi ‹_›
  · exact hj ‹_›

theorem decodeFamily0_standsFor {w : Word} (h : opField w = 0x0) : StandsFor (decodeFamily0 w) w := by
  unfold decodeFamily0
  split_ifs with isCls isRet
  · exact ⟨rfl, formatXKK_of_fields h isCls⟩
  · exact ⟨rfl, formatXKK_of_fields h isRet⟩
  · exact ⟨by simp_all [Instr.wf, selectors0, kkField_nnnField], formatNNN_of_fields h⟩

theorem decodeFamily8_standsFor {w : Word} (h : opField w = 0x8) : StandsFor (decodeFamily8 w) w := by
  unfold decodeFamily8
  split_ifs
  iterate 9 exact ⟨rfl, formatXYN_of_fields h ‹_›⟩
  refine ⟨by simp_all [Instr.wf, selectors8], ?_⟩
  obtain ⟨high, low⟩ := midByte_nibbles w
  rw [encode_nop8, high, low, formatXYN_of_fields h rfl]

theorem decodeFamilyE_standsFor {w : Word} (h : opField w = 0xE) : StandsFor (decodeFamilyE w) w := by
  unfold decodeFamilyE
  split_ifs with isSkp isSknp
  · exact ⟨rfl, formatXKK_of_fields h isSkp⟩
  · exact ⟨rfl, formatXKK_of_fields h isSknp⟩
  · exact ⟨by simp_all [Instr.wf, selectorsE], formatXKK_of_fields h rfl⟩

theorem decodeFamilyF_standsFor {w : Word} (h : opField w = 0xF) : StandsFor (decodeFamilyF w) w := by
  unfold decodeFamilyF
  split_ifs
  iterate 9 exact ⟨rfl, formatXKK_of_fields h ‹_›⟩
  exact ⟨by simp_all [Instr.wf, selectorsF], formatXKK_of_fields h rfl⟩

/-- Every word has one of the 16 primary selectors, and each handler's instruction stands for its words (R74, R79). -/
theorem decodeWord_standsFor (w : Word) : StandsFor (decodeWord w) w := by
  unfold decodeWord
  refine standsFor_ite decodeFamily0_standsFor fun _ => ?_
  refine standsFor_ite (fun op => ⟨rfl, formatNNN_of_fields op⟩) fun _ => ?_
  refine standsFor_ite (fun op => ⟨rfl, formatNNN_of_fields op⟩) fun _ => ?_
  refine standsFor_ite (fun op => ⟨rfl, formatXKK_of_fields op rfl⟩) fun _ => ?_
  refine standsFor_ite (fun op => ⟨rfl, formatXKK_of_fields op rfl⟩) fun _ => ?_
  refine standsFor_ite (fun op => ⟨rfl, formatXYN_of_fields op rfl⟩) fun _ => ?_
  refine standsFor_ite (fun op => ⟨rfl, formatXKK_of_fields op rfl⟩) fun _ => ?_
  refine standsFor_ite (fun op => ⟨rfl, formatXKK_of_fields op rfl⟩) fun _ => ?_
  refine standsFor_ite decodeFamily8_standsFor fun _ => ?_
  refine standsFor_ite (fun op => ⟨rfl, formatXYN_of_fields op rfl⟩) fun _ => ?_
  refine standsFor_ite (fun op => ⟨rfl, formatNNN_of_fields op⟩) fun _ => ?_
  refine standsFor_ite (fun op => ⟨rfl, formatNNN_of_fields op⟩) fun _ => ?_
  refine standsFor_ite (fun op => ⟨rfl, formatXKK_of_fields op rfl⟩) fun _ => ?_
  refine standsFor_ite (fun op => ⟨rfl, formatXYN_of_fields op rfl⟩) fun _ => ?_
  refine standsFor_ite decodeFamilyE_standsFor fun _ => ?_
  exact decodeFamilyF_standsFor (by bv_omega)

/-- Settles O52: `StandsFor` spelled out. -/
theorem encodeOfDecodeIsWord : Obligations.EncodeOfDecodeIsWord := decodeWord_standsFor

/-- Settles O54: each of the words is decoded by evaluation. -/
theorem sampleWordsDecode : Obligations.SampleWordsDecode := by
  unfold Obligations.SampleWordsDecode
  decide

/-! ### The row that a word chooses (R77, R83) -/

theorem covers_iff (r : OpcodeRow) (w : Word) : r.covers w = true ↔ w &&& r.mask = r.pattern := beq_iff_eq

/-- Two rows that cover one word agree where both masks look. -/
theorem patterns_agree {r q : OpcodeRow} {w : Word} (hr : r.covers w = true) (hq : q.covers w = true) :
    r.pattern &&& q.mask = q.pattern &&& r.mask := by
  rw [covers_iff] at hr hq
  rw [← hr, ← hq, BitVec.and_assoc, BitVec.and_assoc, BitVec.and_comm r.mask]

/-- No two rows of the map that are no fallback agree where both masks look. -/
theorem plainRows_apart :
    ∀ r ∈ plainRows, ∀ q ∈ plainRows, r.pattern &&& q.mask = q.pattern &&& r.mask → r = q := by
  decide

theorem fallbackRows_apart :
    ∀ r ∈ fallbackRows, ∀ q ∈ fallbackRows, r.pattern &&& q.mask = q.pattern &&& r.mask → r = q := by
  decide

/-- The word of an instruction is covered by the instruction's own row. -/
theorem row_covers_encode (i : Instr) : i.row.covers (encode i) = true := by
  rw [covers_iff]
  cases i with
  | sys | jp | call | ldINnn | jpV0Nnn => exact formatNNN_top _ _
  | seVxKk | sneVxKk | ldVxKk | addVxKk | rndVxKk | nopE | nopF => exact formatXKK_top _ _ _
  | seVxVy | sneVxVy | drwVxVyN => exact formatXYN_top _ _ _ _
  | ldVxVy | orVxVy | andVxVy | xorVxVy | addVxVy | subVxVy | shrVx | subnVxVy | shlVx =>
    exact formatXYN_topLow _ _ _ _
  | nop8 u n => exact Laws.EncodesInRow.nop8 u n
  | _ => exact formatXKK_topLow _ _ _

theorem kkField_and (a b : Word) : kkField (a &&& b) = kkField a &&& kkField b := BitVec.extractLsb'_and ..

theorem nField_and (a b : Word) : nField (a &&& b) = nField a &&& nField b := BitVec.extractLsb'_and ..

/-- A row that fixes the low byte covers only words with that low byte. -/
theorem kkField_of_covers {r : OpcodeRow} {w : Word} (h : r.covers w = true) (fixed : kkField r.mask = 0xFF) :
    kkField w = kkField r.pattern := by
  rw [← (covers_iff r w).1 h, kkField_and, fixed]
  exact (BitVec.and_allOnes).symm

/-- A row that fixes the low nibble covers only words with that low nibble. -/
theorem nField_of_covers {r : OpcodeRow} {w : Word} (h : r.covers w = true) (fixed : nField r.mask = 0xF) :
    nField w = nField r.pattern := by
  rw [← (covers_iff r w).1 h, nField_and, fixed]
  exact (BitVec.and_allOnes).symm

/-! In the families that have a fallback, each plain row fixes the selector, at one that the family dispatches on. -/

theorem plainRows_family0 : ∀ r ∈ plainRows, r.pattern &&& 0xF000 = 0x0000 &&& r.mask →
    kkField r.mask = 0xFF ∧ kkField r.pattern ∈ selectors0 := by decide

theorem plainRows_family8 : ∀ r ∈ plainRows, r.pattern &&& 0xF000 = 0x8000 &&& r.mask →
    nField r.mask = 0xF ∧ nField r.pattern ∈ selectors8 := by decide

theorem plainRows_familyE : ∀ r ∈ plainRows, r.pattern &&& 0xF000 = 0xE000 &&& r.mask →
    kkField r.mask = 0xFF ∧ kkField r.pattern ∈ selectorsE := by decide

theorem plainRows_familyF : ∀ r ∈ plainRows, r.pattern &&& 0xF000 = 0xF000 &&& r.mask →
    kkField r.mask = 0xFF ∧ kkField r.pattern ∈ selectorsF := by decide

/-- Only the four fallback constructors have a fallback row. -/
theorem row_mem (i : Instr) : (i.row.fallback = false ∧ i.row ∈ plainRows) ∨
    (i.row.fallback = true ∧ i.row ∈ fallbackRows) := by
  cases i with
  | sys | nop8 | nopE | nopF => exact .inr ⟨rfl, List.elem_iff.1 rfl⟩
  | _ => exact .inl ⟨rfl, List.elem_iff.1 rfl⟩

/-- No plain row covers the word of a well-formed fallback: it would fix a selector that the family dispatches on. -/
theorem row_plain_of_covers {i : Instr} (wellFormed : i.wf = true) {r : OpcodeRow} (plain : r ∈ plainRows)
    (covered : r.covers (encode i) = true) : i.row.fallback = false := by
  have agree := patterns_agree covered (row_covers_encode i)
  cases i with
  | sys nnn =>
    obtain ⟨fixed, selector⟩ := plainRows_family0 r plain agree
    rw [← kkField_of_covers covered fixed, encode, kkField_formatNNN] at selector
    exact absurd selector (by simpa [Instr.wf] using wellFormed)
  | nop8 u n =>
    obtain ⟨fixed, selector⟩ := plainRows_family8 r plain agree
    rw [← nField_of_covers covered fixed, encode_nop8, nField_formatXYN] at selector
    exact absurd selector (by simpa [Instr.wf] using wellFormed)
  | nopE u kk =>
    obtain ⟨fixed, selector⟩ := plainRows_familyE r plain agree
    rw [← kkField_of_covers covered fixed, encode, kkField_formatXKK] at selector
    exact absurd selector (by simpa [Instr.wf] using wellFormed)
  | nopF u kk =>
    obtain ⟨fixed, selector⟩ := plainRows_familyF r plain agree
    rw [← kkField_of_covers covered fixed, encode, kkField_formatXKK] at selector
    exact absurd selector (by simpa [Instr.wf] using wellFormed)
  | _ => rfl

theorem chosen_iff (r : OpcodeRow) (w : Word) : r.chosen w = true ↔
    r.covers w = true ∧ (r.fallback = true → ∀ q ∈ plainRows, q.covers w = false) := by
  unfold OpcodeRow.chosen
  cases r.fallback <;> simp

/-- The row of a well-formed instruction is chosen for its word. -/
theorem row_chosen {i : Instr} (wellFormed : i.wf = true) : i.row.chosen (encode i) = true := by
  refine (chosen_iff _ _).2 ⟨row_covers_encode i, fun isFallback q plain => ?_⟩
  by_contra covered
  rw [row_plain_of_covers wellFormed plain (Bool.not_eq_false _ ▸ covered)] at isFallback
  cases isFallback

theorem plainRows_not_fallback : ∀ r ∈ plainRows, r.fallback = false := by decide

theorem fallbackRows_fallback : ∀ r ∈ fallbackRows, r.fallback = true := by decide

/-- Every row chosen for the word of a well-formed instruction is the instruction's: they are both plain or both
fallbacks, and rows of one kind never cover the same word. -/
theorem row_unique {i : Instr} (wellFormed : i.wf = true) {r : OpcodeRow} (listed : r ∈ plainRows ++ fallbackRows)
    (chosen : r.chosen (encode i) = true) : r = i.row := by
  obtain ⟨covered, onlyFallback⟩ := (chosen_iff _ _).1 chosen
  have agree := patterns_agree covered (row_covers_encode i)
  obtain plain | fallback := List.mem_append.1 listed
  · obtain ⟨-, own⟩ | ⟨isFallback, -⟩ := row_mem i
    · exact plainRows_apart r plain _ own agree
    · rw [row_plain_of_covers wellFormed plain covered] at isFallback
      cases isFallback
  · obtain ⟨-, own⟩ | ⟨-, own⟩ := row_mem i
    · have uncovered := onlyFallback (fallbackRows_fallback r fallback) i.row own
      rw [row_covers_encode] at uncovered
      cases uncovered
    · exact fallbackRows_apart r fallback _ own agree

/-- Settles O53: a word is that of its decoded instruction, whose row is chosen for it and is the only one chosen. -/
theorem decoderFollowsOpcodeMap : Obligations.DecoderFollowsOpcodeMap := by
  intro w
  obtain ⟨wellFormed, encoded⟩ := decodeWord_standsFor w
  have listed : (decodeWord w).row ∈ plainRows ++ fallbackRows :=
    List.mem_append.2 ((row_mem _).imp And.right And.right)
  have chosen := row_chosen wellFormed
  have unique := @row_unique _ wellFormed
  rw [encoded] at chosen unique
  exact ⟨listed, chosen, fun r => unique⟩

/-! ### The no-op space (R79, R99) -/

theorem opField_toNat (w : Word) : (opField w).toNat = w.toNat / 0x1000 := by
  have := w.isLt
  rw [opField, BitVec.extractLsb'_toNat, Nat.shiftRight_eq_div_pow]
  omega

theorem kkField_toNat (w : Word) : (kkField w).toNat = w.toNat % 0x100 := by
  rw [kkField, BitVec.extractLsb'_toNat, Nat.shiftRight_zero]

theorem nField_toNat (w : Word) : (nField w).toNat = w.toNat % 0x10 := by
  rw [nField, BitVec.extractLsb'_toNat, Nat.shiftRight_zero]

theorem decodeWord_op0 {w : Word} (h : opField w = 0x0) : decodeWord w = decodeFamily0 w := if_pos h

theorem decodeWord_op8 {w : Word} (h : opField w = 0x8) : decodeWord w = decodeFamily8 w := by simp [decodeWord, h]

theorem decodeWord_opE {w : Word} (h : opField w = 0xE) : decodeWord w = decodeFamilyE w := by simp [decodeWord, h]

theorem decodeWord_opF {w : Word} (h : opField w = 0xF) : decodeWord w = decodeFamilyF w := by simp [decodeWord, h]

/-! A family decodes every selector that it does not dispatch on to its fallback. -/

theorem decodeFamily0_sys {w : Word} (h : kkField w ∉ selectors0) : decodeFamily0 w = .sys (nnnField w) := by
  simp_all [selectors0, decodeFamily0]

theorem decodeFamily8_nop {w : Word} (h : nField w ∉ selectors8) :
    decodeFamily8 w = .nop8 (midByte w) (nField w) := by
  simp_all [selectors8, decodeFamily8]

theorem decodeFamilyE_nop {w : Word} (h : kkField w ∉ selectorsE) :
    decodeFamilyE w = .nopE (nibble2 w) (kkField w) := by
  simp_all [selectorsE, decodeFamilyE]

theorem decodeFamilyF_nop {w : Word} (h : kkField w ∉ selectorsF) :
    decodeFamilyF w = .nopF (nibble2 w) (kkField w) := by
  simp_all [selectorsF, decodeFamilyF]

/-- A field is none of some values when its number is none of theirs. -/
theorem field_not_mem {n : Nat} {b : BitVec n} {l : List (BitVec n)} (h : b.toNat ∉ l.map BitVec.toNat) : b ∉ l :=
  fun mem => h (List.mem_map_of_mem mem)

theorem opField_eq {w : Word} {op : BitVec 4} (h : w.toNat / 0x1000 = op.toNat) : opField w = op :=
  BitVec.eq_of_toNat_eq ((opField_toNat w).trans h)

end Sys2Proof

namespace Sys2Proof.Machine

/-- A word of the no-op space runs as a no-op. -/
theorem exec_of_noOpWord {w : Word} (h : noOpWord w) (s : State) : exec (decodeWord w) s = .next s := by
  obtain ⟨op, kk⟩ | ⟨op, n⟩ | ⟨op, kk⟩ | ⟨op, kk⟩ := h
  · have selector : kkField w ∉ selectors0 := field_not_mem (kkField_toNat w ▸ kk)
    rw [decodeWord_op0 (opField_eq op), decodeFamily0_sys selector]
    rfl
  · have apart : ∀ k ∈ [0x8, 0x9, 0xA, 0xB, 0xC, 0xD, 0xF], k ∉ selectors8.map BitVec.toNat := by decide
    have selector : nField w ∉ selectors8 := field_not_mem (nField_toNat w ▸ apart _ n)
    rw [decodeWord_op8 (opField_eq op), decodeFamily8_nop selector]
    rfl
  · have selector : kkField w ∉ selectorsE := field_not_mem (kkField_toNat w ▸ kk)
    rw [decodeWord_opE (opField_eq op), decodeFamilyE_nop selector]
    rfl
  · have selector : kkField w ∉ selectorsF := field_not_mem (kkField_toNat w ▸ kk)
    rw [decodeWord_opF (opField_eq op), decodeFamilyF_nop selector]
    rfl

/-- Settles O9: the step runs the word from the fetched state, which the no-op leaves. -/
theorem noOpSpaceOnlyAdvances : Obligations.NoOpSpaceOnlyAdvances := by
  intro s fetchable noOp
  rw [step_of_canFetch fetchable, exec_of_noOpWord noOp, State.fetched_eq]

/-- Settles O10: each of the four runs as `noOp`. -/
theorem noOpInstructionsChangeNothing : Obligations.NoOpInstructionsChangeNothing :=
  fun _ _ _ _ => ⟨rfl, rfl, rfl, rfl⟩

end Sys2Proof.Machine
end

section
/-! Memory (20_memory.md, 43_index_memory.md): the canonical form determines memory, what an access past the top does,
the block transfers and the load, and the state after reset. -/

namespace Sys2Proof.Machine

/-! ### Canonical memories are determined by their reads (log 6) -/

/-- A listed cell is what its address reads as. -/
theorem readByte_of_mem : ∀ {m : Memory} {c : Host.Cell}, Memory.wf m → c ∈ m → readByte m c.1 = c.2
  | d :: m, c, hm, hc => by
    obtain ⟨rising, -, -, hm'⟩ := (Memory.wf_cons d m).1 hm
    obtain rfl | later := List.mem_cons.1 hc
    · exact if_pos rfl
    · rw [readByte_cons, if_neg (Nat.ne_of_gt (rising c later)), readByte_of_mem hm' later]

/-- An address that one of two memories lists, the other lists too, when they read alike: a listed byte differs from the
reset contents. -/
theorem listed_of_reads {m m' : Memory} (hm : Memory.wf m) (reads : ∀ a, readByte m a = readByte m' a) {c : Host.Cell}
    (hc : c ∈ m) : ∃ d ∈ m', d.1 = c.1 := by
  by_contra unlisted
  refine (hm.2 c hc).2 ?_
  rw [← readByte_of_mem hm hc, reads, readByte_unlisted]
  exact fun d hd e => unlisted ⟨d, hd, e⟩

/-- The first address of a canonical memory is its lowest. -/
theorem head_le {c : Host.Cell} {m : Memory} (hm : Memory.wf (c :: m)) {a : Nat} (listed : ∃ d ∈ c :: m, d.1 = a) :
    c.1 ≤ a := by
  obtain ⟨d, hd, rfl⟩ := listed
  obtain ⟨rising, -⟩ := (Memory.wf_cons c m).1 hm
  obtain rfl | later := List.mem_cons.1 hd
  · exact le_rfl
  · exact (rising d later).le

/-- Below the cells of a list an address reads as its reset contents. -/
theorem readByte_below {m : Memory} {a : Nat} (h : ∀ d ∈ m, a < d.1) : readByte m a = unlistedByte a :=
  readByte_unlisted m a fun d hd => Nat.ne_of_gt (h d hd)

/-- Settles O50, by induction on the two lists: equal reads force the same first cell, and then the rests read alike. -/
theorem memoryEqualWhenReadsAgree : Obligations.MemoryEqualWhenReadsAgree := by
  intro m
  induction m with
  | nil =>
    intro m' _ hm' reads
    cases m' with
    | nil => rfl
    | cons d m' =>
      obtain ⟨_, absent, -⟩ := listed_of_reads hm' (fun a => (reads a).symm) (List.mem_cons_self (a := d))
      cases absent
  | cons c m ih =>
    intro m' hm hm' reads
    cases m' with
    | nil =>
      obtain ⟨_, absent, -⟩ := listed_of_reads hm reads (List.mem_cons_self (a := c))
      cases absent
    | cons d m' =>
      have sameAddress : c.1 = d.1 := Nat.le_antisymm
        (head_le hm (listed_of_reads hm' (fun a => (reads a).symm) List.mem_cons_self))
        (head_le hm' (listed_of_reads hm reads List.mem_cons_self))
      have sameByte : c.2 = d.2 := by
        rw [← readByte_of_mem hm List.mem_cons_self, reads, sameAddress, readByte_of_mem hm' List.mem_cons_self]
      obtain rfl : c = d := Prod.ext sameAddress sameByte
      obtain ⟨above, -, -, tail⟩ := (Memory.wf_cons c m).1 hm
      obtain ⟨above', -, -, tail'⟩ := (Memory.wf_cons c m').1 hm'
      rw [ih m' tail tail' fun a => ?_]
      by_cases ha : a = c.1
      · rw [ha, readByte_below above, readByte_below above']
      · have := reads a
        rwa [readByte_cons, readByte_cons, if_neg ha, if_neg ha] at this

/-! ### An access past the top of memory (R54 to R56) -/

/-- An instruction that accesses n bytes from I on raises MemoryOutOfRange when one of them is above 0xFFF. -/
theorem raises_of_access {s : State} {i : Instr} {n : Nat}
    (access : (∃ x, i = .ldBVx x ∧ n = 3) ∨ (∃ x : Reg, i = .ldMemVx x ∧ n = x.val + 1) ∨
      (∃ x : Reg, i = .ldVxMem x ∧ n = x.val + 1) ∨ (∃ x y k, i = .drwVxVyN x y k ∧ n = k.toNat))
    (used : 0 < n) (past : 0x1000 < indexBase s + n) : raises i s = some .memoryOutOfRange := by
  unfold indexBase at past
  obtain ⟨x, rfl, rfl⟩ | ⟨x, rfl, rfl⟩ | ⟨x, rfl, rfl⟩ | ⟨x, y, k, rfl, rfl⟩ := access
  · exact if_pos (by omega)
  · exact if_pos (by omega)
  · exact if_pos (by omega)
  · exact if_pos ⟨used, by omega⟩

/-- Settles O28: the table's fault is recorded and nothing else changes; its info, the larger of I and 0x1000, is the
lowest address above 0xFFF that the access reaches. -/
theorem accessPastTopWritesNothing : Obligations.AccessPastTopWritesNothing := by
  rintro s i n access ⟨a, fromBase, toEnd, above⟩
  have raised := raises_of_access access (by omega : 0 < n) (by omega : 0x1000 < indexBase s + n)
  have info := faultInfo_memoryOutOfRange s
  refine ⟨faultInfo .memoryOutOfRange s, exec_of_raises raised, ?_, ?_, ?_, fun b _ _ => ?_⟩ <;> omega

/-! ### Stores at I (R144, R145) -/

theorem exec_ldBVx {s : State} (x : Reg) (h : indexBase s + 2 ≤ 0xFFF) :
    exec (.ldBVx x) s = .next (s.setMem (writeBlock s.mem (indexBase s) (decimalDigits s.v[x]))) :=
  exec_of_not_raises (raises_ldBVx_none.2 (by omega))

theorem exec_ldMemVx {s : State} {x : Reg} (h : indexBase s + x.val ≤ 0xFFF) :
    exec (.ldMemVx x) s = .next (s.setMem (writeBlock s.mem (indexBase s) (s.firstRegs x))) :=
  exec_of_not_raises (raises_ldMemVx_none.2 (by omega))

theorem exec_ldVxMem {s : State} {x : Reg} (h : indexBase s + x.val ≤ 0xFFF) :
    exec (.ldVxMem x) s = .next (s.loadRegs (readBlock s.mem (indexBase s) (x.val + 1))) :=
  exec_of_not_raises (raises_ldVxMem_none.2 (by omega))

/-- The number of the k-th stored digit. -/
theorem readByte_digit {m : Memory} {p : Nat} (hm : Memory.wf m) (fits : p + 2 ≤ 0xFFF) (a : Byte) {k : Nat}
    (hk : k < 3) : (readByte (writeBlock m p (decimalDigits a)) (p + k)).toNat =
      [a.toNat / 100, a.toNat / 10 % 10, a.toNat % 10].getD k 0 := by
  have inMemory : p + (decimalDigits a).length ≤ Config.memSize := by
    simp only [decimalDigits_length, Config.memSize]
    omega
  rw [readByte_writeBlock_at (decimalDigits a) m p k hm inMemory hk 0, ← decimalDigits_toNat]
  exact (List.getD_map ..).symm

/-- Settles O25: the three digits are stored as one block at I. -/
theorem decimalDigitsStoredAtIndex : Obligations.DecimalDigitsStoredAtIndex := by
  intro s x hm fits
  have digit {k : Nat} (hk : k < 3) := readByte_digit hm fits s.v[x] hk
  refine ⟨_, exec_ldBVx x fits, digit (by decide : 0 < 3), digit (by decide : 1 < 3), digit (by decide : 2 < 3),
    fun a outside => readByte_writeBlock_other _ _ _ a ?_, rfl⟩
  rw [decimalDigits_length]
  omega

/-- A stored register is read back at its address. -/
theorem readByte_firstRegs {s : State} {x r : Reg} (hm : Memory.wf s.mem) (fits : indexBase s + x.val ≤ 0xFFF)
    (hr : r ≤ x) : readByte (writeBlock s.mem (indexBase s) (s.firstRegs x)) (indexBase s + r.val) = s.v[r] := by
  have := Fin.le_def.1 hr
  have length := s.firstRegs_length x
  have inMemory : indexBase s + (s.firstRegs x).length ≤ Config.memSize := by
    simp only [length, Config.memSize]
    omega
  rw [readByte_writeBlock_at _ s.mem _ r.val hm inMemory (by omega) 0, s.firstRegs_getD x r hr]

/-- Settles O26: V0..Vx are stored as one block at I. -/
theorem registersStoredAtIndex : Obligations.RegistersStoredAtIndex := by
  intro s x hm fits
  refine ⟨_, exec_ldMemVx fits, fun r hr => readByte_firstRegs hm fits hr,
    fun a outside => readByte_writeBlock_other _ _ _ a ?_, rfl⟩
  rw [s.firstRegs_length]
  omega

/-! ### Loads from I (R146) -/

/-- Register r after V0..Vx are loaded from p. -/
theorem loadRegs_readBlock_get (s : State) (m : Memory) (p : Nat) (x r : Reg) :
    (s.loadRegs (readBlock m p (x.val + 1))).v[r] = if r ≤ x then readByte m (p + r.val) else s.v[r] := by
  rw [s.loadRegs_get]
  split
  · next loaded => exact readBlock_getD _ _ _ _ _ (Nat.lt_succ_of_le loaded)
  · next kept => exact readBlock_getD_beyond _ _ _ _ _ (Nat.lt_of_not_le kept)

/-- Settles O27: V0..Vx are loaded from one block at I. -/
theorem registersLoadedFromIndex : Obligations.RegistersLoadedFromIndex := by
  intro s x fits
  refine ⟨_, exec_ldVxMem fits, fun r hr => ?_, fun r hr => ?_, rfl⟩
  · rw [loadRegs_readBlock_get, if_pos hr]
  · rw [loadRegs_readBlock_get, if_neg (not_le.2 hr)]

/-- Settles O29: the load reads the block at I that the store wrote, since neither changes I. -/
theorem storeThenLoadRestoresRegisters : Obligations.StoreThenLoadRestoresRegisters := by
  intro s t u x regs hm fits stored loaded r
  obtain rfl := Host.Outcome.next.inj ((exec_ldMemVx fits).symm.trans stored)
  rw [exec_ldVxMem (by exact fits)] at loaded
  obtain rfl := Host.Outcome.next.inj loaded
  rw [loadRegs_readBlock_get]
  split
  · next hr => exact readByte_firstRegs hm fits hr
  · rfl

/-- Settles O30: the fetch after the store reads the two bytes at pc = I, which are V0 and V1. -/
theorem storeIsFetchedByNextCycle : Obligations.StoreIsFetchedByNextCycle := by
  intro s x hm fetchable atPc two fits
  refine ⟨_, exec_ldMemVx fits, ?_⟩
  have base : s.pc.toNat = indexBase s := congrArg BitVec.toNat atPc.symm
  have first := readByte_firstRegs hm fits (Fin.zero_le x)
  have second := readByte_firstRegs (r := 1) hm fits (Fin.le_def.2 two)
  have stored : fetchWord (writeBlock s.mem (indexBase s) (s.firstRegs x)) s.pc = s.v[(0 : Reg)] ++ s.v[(1 : Reg)] := by
    rw [fetchWord, base, ← first, ← second]
    rfl
  rw [step_of_canFetch (by exact fetchable), State.fetched_eq, State.setMem_mem, State.setMem_pc, stored]

/-! ### The load (R62) -/

/-- Settles O41: an image that passes the length check is stored as one block at 0x200. -/
theorem loadCopiesImageAt0x200 : Obligations.LoadCopiesImageAt0x200 := by
  intro s bytes hm fits
  have inMemory : Config.progBase + bytes.length ≤ Config.memSize := by
    simp only [Config.progBase, Config.memSize]
    omega
  have copied := loadImage_of_fits (s := s) (bytes := bytes) fits
  refine ⟨_, by rw [hostOp_load, copied], fun k hk => ?_, fun a outside => ?_, rfl⟩
  · exact readByte_writeBlock_at bytes s.mem Config.progBase k hm inMemory hk 0
  · exact readByte_writeBlock_other bytes s.mem Config.progBase a outside

/-! ### Reset (70_reset_and_hazards.md R231) -/

theorem pixel_reset (px py : Nat) : pixel State.reset.fb px py = false := by
  by_cases hy : py < 32
  · exact pixel_blankScreen px hy
  · rw [pixel, Vector.getElem?_eq_none (Nat.not_lt.1 hy)]
    exact zeroRow_getMsbD px

/-- The reset contents are FONT at 0x050..0x09F and 0 elsewhere (R51): FONT has 80 bytes. -/
theorem unlistedByte_eq (a : Nat) :
    unlistedByte a = if 0x050 ≤ a ∧ a ≤ 0x09F then fontBytes.getD (a - 0x050) 0 else 0 := by
  have length : fontBytes.length = 80 := by decide
  unfold unlistedByte
  by_cases fromFirst : 0x050 ≤ a
  · by_cases toLast : a ≤ 0x09F
    · rw [if_pos fromFirst, if_pos ⟨fromFirst, toLast⟩]
    · rw [if_pos fromFirst, if_neg (fun h => toLast h.2), List.getD_eq_default]
      simp only [length, Config.fontBase]
      omega
  · rw [if_neg fromFirst, if_neg (fun h => fromFirst h.1)]

/-- Settles O1: each field of `State.reset`, and memory that lists no cell. -/
theorem resetStateValues : Obligations.ResetStateValues :=
  ⟨rfl, rfl, rfl, rfl, rfl, rfl, rfl, fun _ => Vector.getElem_replicate _, fun _ => Vector.getElem_replicate _,
    fun _ => Vector.getElem_replicate _, pixel_reset, fun a _ => unlistedByte_eq a⟩

/-- Every byte of FONT leaves its low nibble clear (R52). -/
theorem fontBytes_low_nibble : ∀ b ∈ fontBytes, b.toNat % 16 = 0 := by decide

/-- Settles O2: the three glyphs by evaluation, the low nibbles from FONT's. -/
theorem resetFontGlyphs : Obligations.ResetFontGlyphs := by
  refine ⟨by decide, by decide, by decide, fun a fromFirst toLast => ?_⟩
  have inFont : a - 0x050 < fontBytes.length := by
    have length : fontBytes.length = 80 := by decide
    omega
  have byte : readByte State.reset.mem a = fontBytes[a - 0x050] := by
    rw [← List.getD_eq_getElem _ 0 inFont]
    exact (unlistedByte_eq a).trans (if_pos ⟨fromFirst, toLast⟩)
  rw [byte]
  exact fontBytes_low_nibble _ (List.getElem_mem inFont)

end Sys2Proof.Machine
end

section
/-! The draw (44_display.md R160 to R165): pixel by pixel, twice in a row, and as the spec's nested loop. -/

namespace Sys2Proof.Machine

/-- A draw of height 0, or whose rows all lie in memory, is one write of the screen and one of VF. -/
theorem exec_drwVxVyN {s : State} (x y : Reg) {n : BitVec 4} (h : n.toNat = 0 ∨ indexBase s + n.toNat - 1 ≤ 0xFFF) :
    exec (.drwVxVyN x y n) s =
      .next ((s.setFb (blit s.fb (s.v[x].toNat % 64) (s.v[y].toNat % 32)
          (readBlock s.mem (indexBase s) n.toNat))).setFlag
        (flagOf (collides s.fb (s.v[x].toNat % 64) (s.v[y].toNat % 32)
          (readBlock s.mem (indexBase s) n.toNat)))) :=
  execDrwVxVyN_inRange s x y n (by omega)

/-! ### Pixel by pixel -/

/-- A draw is framed: no field but the screen and the registers changes. -/
theorem State.setFb_setFlag_frame (s : State) (f : Framebuffer) (b : Byte) : (s.setFb f).setFlag b =
    { s with v := ((s.setFb f).setFlag b).v, fb := ((s.setFb f).setFlag b).fb } := rfl

/-- Settles O31: `blit` XORs each pixel with the sprite's bit, and `collides` finds the lit ones among those toggled. -/
theorem drawXorsSpriteAndReportsCollision : Obligations.DrawXorsSpriteAndReportsCollision := by
  intro s x y n inMemory
  refine ⟨_, exec_drwVxVyN x y inMemory, fun px py => pixel_blit s.fb _ _ _ px py, fun hit => ?_, fun miss => ?_,
    fun r hr => ?_, State.setFb_setFlag_frame ..⟩
  · rw [State.setFlag_flag, (collides_iff ..).2 hit]
    rfl
  · rw [State.setFlag_flag, Bool.eq_false_iff.2 fun found => miss ((collides_iff ..).1 found)]
    rfl
  · rw [State.setFlag_get, if_neg hr, State.setFb_v]

/-! ### Height 0 -/

/-- A sprite of no rows has no bits. -/
theorem spriteBit_noRows (x0 y0 px py : Nat) : spriteBit x0 y0 [] px py = false := by
  simp [spriteBit]

theorem collides_noRows (f : Framebuffer) (x0 y0 : Nat) : collides f x0 y0 [] = false := by
  rw [Bool.eq_false_iff, Ne, collides_iff]
  rintro ⟨px, py, -, -, -, bit⟩
  rw [spriteBit_noRows] at bit
  cases bit

theorem blit_noRows (f : Framebuffer) (x0 y0 : Nat) : blit f x0 y0 [] = f :=
  framebuffer_ext fun px py hx hy => by rw [pixel_blit _ _ _ _ _ _ hx hy, spriteBit_noRows, Bool.xor_false]

/-- Settles O33: with no rows the screen stays and nothing collides, so only VF is written, with 0. -/
theorem drawHeightZeroClearsVF : Obligations.DrawHeightZeroClearsVF := by
  intro s x y
  have noRows : readBlock s.mem (indexBase s) (0 : BitVec 4).toNat = [] := rfl
  have drawn := exec_drwVxVyN (s := s) (n := 0) x y (.inl rfl)
  rw [noRows, blit_noRows, collides_noRows] at drawn
  exact ⟨s.setFlag 0, drawn, s.setFlag_flag 0, s.setV_onlyRegs 0xF 0⟩

/-! ### Twice in a row -/

/-- Drawing the same sprite at the same place again undoes the first draw. -/
theorem blit_blit (f : Framebuffer) (x0 y0 : Nat) (rows : List Byte) : blit (blit f x0 y0 rows) x0 y0 rows = f :=
  framebuffer_ext fun px py hx hy => by
    rw [pixel_blit _ _ _ _ _ _ hx hy, pixel_blit _ _ _ _ _ _ hx hy, Bool.xor_assoc, Bool.xor_self, Bool.xor_false]

/-- The second of two draws collides where a sprite bit fell on a pixel that was unlit before the first. -/
theorem collides_blit_iff (f : Framebuffer) (x0 y0 : Nat) (rows : List Byte) :
    collides (blit f x0 y0 rows) x0 y0 rows = true ↔
      ∃ px py, px < 64 ∧ py < 32 ∧ pixel f px py = false ∧ spriteBit x0 y0 rows px py = true := by
  rw [collides_iff]
  refine exists_congr fun px => exists_congr fun py => and_congr_right fun hx => and_congr_right fun hy =>
    and_congr_left fun bit => ?_
  rw [pixel_blit _ _ _ _ _ _ hx hy, bit, Bool.xor_true, Bool.not_eq_true']

theorem flagOf_eq_one (c : Bool) : flagOf c = 1 ↔ c = true := by
  cases c <;> decide

/-- A draw over what an earlier draw left: the coordinates, I and memory are still those of the first state, since
neither coordinate register is VF. -/
theorem exec_drwVxVyN_again {s : State} {x y : Reg} {n : BitVec 4} (hx : x ≠ 0xF) (hy : y ≠ 0xF)
    (h : n.toNat = 0 ∨ indexBase s + n.toNat - 1 ≤ 0xFFF) (f : Framebuffer) (b : Byte) :
    exec (.drwVxVyN x y n) ((s.setFb f).setFlag b) =
      .next ((((s.setFb f).setFlag b).setFb (blit f (s.v[x].toNat % 64) (s.v[y].toNat % 32)
          (readBlock s.mem (indexBase s) n.toNat))).setFlag
        (flagOf (collides f (s.v[x].toNat % 64) (s.v[y].toNat % 32)
          (readBlock s.mem (indexBase s) n.toNat)))) := by
  have base : indexBase ((s.setFb f).setFlag b) = indexBase s := rfl
  have drawn := exec_drwVxVyN (s := (s.setFb f).setFlag b) (n := n) x y h
  rw [State.setFlag_get, if_neg hx, State.setFlag_get, if_neg hy, base] at drawn
  exact drawn

/-- Settles O34: the second draw is the same sprite at the same place, over the first draw's screen. -/
theorem drawTwiceRestoresScreen : Obligations.DrawTwiceRestoresScreen := by
  intro s t u x y n hx hy inMemory first second
  rw [exec_drwVxVyN x y inMemory] at first
  obtain rfl := Host.Outcome.next.inj first
  rw [exec_drwVxVyN_again hx hy inMemory] at second
  obtain rfl := Host.Outcome.next.inj second
  rw [State.setFlag_fb, State.setFb_fb, blit_blit, State.setFlag_flag, flagOf_eq_one]
  exact ⟨rfl, collides_blit_iff ..⟩

/-! ### The spec's nested loop (R160)

The loop visits the sprite's bits in reading order, each once, so a pixel still has its old value when it is toggled. -/

/-- The accumulator of the loop holds the screen f with the pixels of D toggled, and whether one of them was lit. -/
structure Toggled (f : Framebuffer) (D : Nat → Nat → Bool) (acc : Framebuffer × Bool) : Prop where
  screen : ∀ px py, px < 64 → py < 32 → pixel acc.1 px py = (pixel f px py ^^ D px py)
  collision : acc.2 = true ↔ ∃ px py, px < 64 ∧ py < 32 ∧ pixel f px py = true ∧ D px py = true

/-- Only the pixels on the screen count. -/
theorem Toggled.congr {f : Framebuffer} {D D' : Nat → Nat → Bool} {acc : Framebuffer × Bool} (h : Toggled f D acc)
    (same : ∀ px py, px < 64 → py < 32 → D' px py = D px py) : Toggled f D' acc := by
  refine ⟨fun px py hx hy => by rw [h.screen px py hx hy, same px py hx hy], h.collision.trans ?_⟩
  refine exists_congr fun px => exists_congr fun py => and_congr_right fun hx => and_congr_right fun hy => ?_
  rw [same px py hx hy]

theorem toggled_nothing (f : Framebuffer) : Toggled f (fun _ _ => false) (f, false) :=
  ⟨fun px py _ _ => (Bool.xor_false _).symm, by simp⟩

/-- An accumulator is determined by the pixels it has toggled. -/
theorem Toggled.eq_blit {f : Framebuffer} {x0 y0 : Nat} {rows : List Byte} {acc : Framebuffer × Bool}
    (h : Toggled f (spriteBit x0 y0 rows) acc) : acc = (blit f x0 y0 rows, collides f x0 y0 rows) := by
  refine Prod.ext (framebuffer_ext fun px py hx hy => ?_) (Bool.eq_iff_iff.2 ?_)
  · rw [h.screen px py hx hy, pixel_blit _ _ _ _ _ _ hx hy]
  · exact h.collision.trans (collides_iff ..).symm

/-- `setPixel` writes its one pixel. -/
theorem pixel_setPixel (f : Framebuffer) (x y : Nat) (b : Bool) {px py : Nat} (hx : px < 64) (hy : py < 32) :
    pixel (setPixel f x y b) px py = if px = x ∧ py = y then b else pixel f px py := by
  have column : 63 - (64 - 1 - px) = px := by omega
  rw [pixel_eq (setPixel f x y b) px ⟨py, hy⟩]
  simp only [setPixel, Fin.getElem_fin, Vector.getElem_ofFn, BitVec.getMsbD, hx, decide_true, Bool.true_and]
  rw [BitVec.getLsbD_ofFnLE, dif_pos (by omega)]
  simp only [column, and_comm]

/-- The loop's body on a pixel that has not been toggled yet: it is toggled now, and a collision is reported when f has
it lit. -/
theorem Toggled.toggle {f : Framebuffer} {D : Nat → Nat → Bool} {acc : Framebuffer × Bool} (h : Toggled f D acc)
    {x y : Nat} (hx : x < 64) (hy : y < 32) (fresh : D x y = false) :
    Toggled f (fun px py => D px py || decide (px = x ∧ py = y))
      (setPixel acc.1 x y (pixel acc.1 x y ^^ true), if pixel acc.1 x y then true else acc.2) := by
  have old : pixel acc.1 x y = pixel f x y := by rw [h.screen x y hx hy, fresh, Bool.xor_false]
  constructor
  · intro px py hpx hpy
    rw [pixel_setPixel _ _ _ _ hpx hpy, old]
    by_cases here : px = x ∧ py = y
    · obtain ⟨rfl, rfl⟩ := here
      simp [fresh]
    · simp [here, h.screen px py hpx hpy]
  · rw [old]
    by_cases lit : pixel f x y = true
    · simp only [lit, if_true, true_iff]
      exact ⟨x, y, hx, hy, lit, by simp⟩
    · rw [if_neg lit, h.collision]
      refine exists_congr fun px => exists_congr fun py => and_congr_right fun _ => and_congr_right fun _ =>
        and_congr_right fun hit => ?_
      have elsewhere : ¬ (px = x ∧ py = y) := by
        rintro ⟨rfl, rfl⟩
        exact lit hit
      simp [elsewhere]

/-- The bits of the sprite that come before column k of row r in reading order. -/
def bitBefore (x0 y0 : Nat) (rows : List Byte) (r k px py : Nat) : Bool :=
  spriteBit x0 y0 rows px py && decide (py < y0 + r ∨ py = y0 + r ∧ px < x0 + k)

/-- Before column k + 1 come the bits before column k and the bit there. -/
theorem bitBefore_succ (x0 y0 : Nat) (rows : List Byte) (r k px py : Nat) :
    bitBefore x0 y0 rows r (k + 1) px py =
      (bitBefore x0 y0 rows r k px py || (spriteBit x0 y0 rows px py && decide (px = x0 + k ∧ py = y0 + r))) := by
  unfold bitBefore
  rw [← Bool.and_or_distrib_left, ← Bool.decide_or]
  congr 2
  rw [eq_iff_iff]
  omega

/-- A set bit lies in the sprite's 8 columns and in its rows. -/
theorem spriteBit_bounds {x0 y0 : Nat} {rows : List Byte} {px py : Nat} (h : spriteBit x0 y0 rows px py = true) :
    x0 ≤ px ∧ px < x0 + 8 ∧ y0 ≤ py ∧ py < y0 + rows.length := by
  rw [spriteBit, Bool.and_eq_true, decide_eq_true_eq] at h
  exact h.1

/-- Before row r + 1 come the bits before column 8 of row r. -/
theorem bitBefore_nextRow (x0 y0 : Nat) (rows : List Byte) (r px py : Nat) :
    bitBefore x0 y0 rows (r + 1) 0 px py = bitBefore x0 y0 rows r 8 px py := by
  by_cases bit : spriteBit x0 y0 rows px py = true
  · have := spriteBit_bounds bit
    simp only [bitBefore, bit, Bool.true_and, decide_eq_decide]
    omega
  · simp [bitBefore, bit]

/-- No bit comes before the first. -/
theorem bitBefore_start (x0 y0 : Nat) (rows : List Byte) (px py : Nat) : bitBefore x0 y0 rows 0 0 px py = false := by
  by_cases bit : spriteBit x0 y0 rows px py = true
  · have := spriteBit_bounds bit
    simp only [bitBefore, bit, Bool.true_and, decide_eq_false_iff_not]
    omega
  · simp [bitBefore, bit]

/-- Past the last row come all bits. -/
theorem bitBefore_end (x0 y0 : Nat) {rows : List Byte} {r : Nat} (h : rows.length ≤ r) (px py : Nat) :
    bitBefore x0 y0 rows r 0 px py = spriteBit x0 y0 rows px py := by
  by_cases bit : spriteBit x0 y0 rows px py = true
  · have := spriteBit_bounds bit
    simp only [bitBefore, bit, Bool.true_and, decide_eq_true_eq]
    omega
  · simp [bitBefore, bit]

/-- The sprite's bit at column k of row r. -/
theorem spriteBit_at (x0 y0 : Nat) {rows : List Byte} {r k : Nat} (hr : r < rows.length) (hk : k < 8) :
    spriteBit x0 y0 rows (x0 + k) (y0 + r) = (rows.getD r 0).getLsbD (7 - k) := by
  simp [spriteBit, hr, hk]

section loop
variable {f : Framebuffer} {x0 y0 r : Nat} {rows : List Byte} {acc : Framebuffer × Bool}

/-- One column of the loop. -/
theorem plot_toggled {k : Nat} (hr : r < rows.length) (hk : k < 8) (h : Toggled f (bitBefore x0 y0 rows r k) acc) :
    Toggled f (bitBefore x0 y0 rows r (k + 1)) (plot x0 y0 r (rows.getD r 0) acc k) := by
  have bit := spriteBit_at x0 y0 hr hk
  unfold plot
  split
  · next drawn =>
    obtain ⟨isSet, hx, hy⟩ := drawn
    have fresh : bitBefore x0 y0 rows r k (x0 + k) (y0 + r) = false := by simp [bitBefore]
    refine (h.toggle hx hy fresh).congr fun px py _ _ => ?_
    rw [bitBefore_succ]
    by_cases here : px = x0 + k ∧ py = y0 + r
    · obtain ⟨rfl, rfl⟩ := here
      simp only [bit, isSet, and_self, decide_true, Bool.and_true, Bool.or_true]
    · simp [here]
  · next skipped =>
    refine h.congr fun px py hx hy => ?_
    rw [bitBefore_succ]
    by_cases here : px = x0 + k ∧ py = y0 + r
    · obtain ⟨rfl, rfl⟩ := here
      have clear : (rows.getD r 0).getLsbD (7 - k) = false := by simpa [hx, hy] using skipped
      simp only [bit, clear, Bool.false_and, Bool.or_false]
    · simp [here]

/-- One row of the loop, by induction on its columns. -/
theorem plotRow_toggled (hr : r < rows.length) (h : Toggled f (bitBefore x0 y0 rows r 0) acc) :
    Toggled f (bitBefore x0 y0 rows (r + 1) 0) (plotRow x0 y0 r (rows.getD r 0) acc) := by
  have columns : ∀ k, k ≤ 8 → Toggled f (bitBefore x0 y0 rows r k)
      ((List.range k).foldl (plot x0 y0 r (rows.getD r 0)) acc) := by
    intro k
    induction k with
    | zero => exact fun _ => h
    | succ k ih =>
      intro hk
      rw [List.range_succ, List.foldl_append]
      exact plot_toggled hr hk (ih (by omega))
  exact (columns 8 le_rfl).congr fun px py _ _ => bitBefore_nextRow x0 y0 rows r px py

end loop

/-- The rows from r on, by induction on them. -/
theorem drawLoop_toggled {f : Framebuffer} {x0 y0 : Nat} {rows : List Byte} (todo : List Byte) :
    ∀ (r : Nat) (acc : Framebuffer × Bool), rows.drop r = todo → Toggled f (bitBefore x0 y0 rows r 0) acc →
      Toggled f (spriteBit x0 y0 rows) (drawLoop x0 y0 r todo acc) := by
  induction todo with
  | nil =>
    intro r acc done h
    exact h.congr fun px py _ _ => (bitBefore_end x0 y0 (List.drop_eq_nil_iff.1 done) px py).symm
  | cons row todo ih =>
    intro r acc rest h
    have hr : r < rows.length := by
      by_contra past
      rw [List.drop_eq_nil_of_le (Nat.not_lt.1 past)] at rest
      cases rest
    obtain ⟨rfl, rfl⟩ := List.cons.inj ((List.drop_eq_getElem_cons hr).symm.trans rest)
    rw [← List.getD_eq_getElem rows 0 hr]
    exact ih (r + 1) _ rfl (plotRow_toggled hr h)

/-- The loop over all rows is the draw by whole rows. -/
theorem drawLoop_eq_blit (f : Framebuffer) (x0 y0 : Nat) (rows : List Byte) :
    drawLoop x0 y0 0 rows (f, false) = (blit f x0 y0 rows, collides f x0 y0 rows) := by
  have start : Toggled f (bitBefore x0 y0 rows 0 0) (f, false) :=
    (toggled_nothing f).congr fun px py _ _ => bitBefore_start x0 y0 rows px py
  exact (drawLoop_toggled rows 0 (f, false) List.drop_zero start).eq_blit

/-- Settles O32: the loop and the draw by whole rows toggle the same pixels and report the same collision. -/
theorem drawEqualsSpecLoop : Obligations.DrawEqualsSpecLoop := by
  intro s x y n inMemory
  rw [exec_drwVxVyN x y inMemory, drawLoop_eq_blit]
  rfl

end Sys2Proof.Machine
end

section
/-! Control flow and the key instructions (41_control_flow.md, 45_input_timers.md): jumps, calls and returns, skips, and
the key wait. -/

namespace Sys2Proof.Machine

theorem State.setPc_onlyPc (s : State) (w : Word) : OnlyPc s (s.setPc w) := rfl

theorem State.skipIf_onlyPc (s : State) (c : Bool) : OnlyPc s (s.skipIf c) := rfl

/-! ### Jumps (R101, R102) -/

theorem exec_jp (s : State) (nnn : Imm12) : exec (.jp nnn) s = .next (s.setPc (absolute nnn)) := rfl

theorem exec_jpV0Nnn (s : State) (nnn : Imm12) : exec (.jpV0Nnn nnn) s = .next (s.setPc (absolutePlusV0 s nnn)) := rfl

/-- Settles O12: each jump is one write of pc, and the next fetch checks what it wrote. -/
theorem jumpsWritePcUnchecked : Obligations.JumpsWritePcUnchecked := by
  intro s nnn
  refine ⟨⟨_, exec_jp s nnn, absolute_toNat nnn, s.setPc_onlyPc _, fun noFault odd => ?_⟩,
    ⟨_, exec_jpV0Nnn s nnn, absolutePlusV0_toNat s nnn, s.setPc_onlyPc _, fun noFault => step_odd noFault,
      fun noFault => step_pastTop noFault⟩⟩
  exact step_odd noFault ((congrArg (· % 2) (absolute_toNat nnn)).trans odd)

/-! ### Calls and returns (R103, R104) -/

/-- A CALL with room on the stack. -/
theorem exec_call {s : State} (nnn : Imm12) (room : s.sp.val < 16) :
    ∃ u, s.push? s.pc = some u ∧ exec (.call nnn) s = .next (u.setPc (absolute nnn)) := by
  cases h : s.push? s.pc with
  | none => exact absurd ((s.push?_none _).1 h) (by omega)
  | some u => exact ⟨u, rfl, by rw [exec, execCall, h]⟩

/-- A RET with an entry on the stack. -/
theorem exec_ret {s : State} (u : BitVec 4) (used : 0 < s.sp.val) :
    ∃ t, s.pop? = some t ∧ exec (.ret u) s = .next t := by
  cases h : s.pop? with
  | none => exact absurd (s.pop?_none.1 h) (by omega)
  | some t => exact ⟨t, rfl, by rw [exec, execRet, h]⟩

/-- Settles O13: the push either succeeds, as `push?_some` says, or the stack is full. -/
theorem callPushesOrOverflows : Obligations.CallPushesOrOverflows := by
  refine fun s nnn => ⟨fun room => ?_, execCall_full nnn⟩
  obtain ⟨u, pushed, called⟩ := exec_call nnn room
  obtain ⟨-, counted, entries, framed⟩ := State.push?_some pushed
  refine ⟨_, called, absolute_toNat nnn, counted, entries, ?_⟩
  rw [framed]
  rfl

/-- Settles O14: the pop either succeeds, as `pop?_some` says, or the stack is empty. -/
theorem retPopsOrUnderflows : Obligations.RetPopsOrUnderflows := by
  refine fun s u => ⟨fun j hj => ?_, execRet_empty u⟩
  obtain ⟨t, popped, returned⟩ := exec_ret u (by omega : 0 < s.sp.val)
  obtain ⟨k, hk, count, target, framed⟩ := State.pop?_some popped
  obtain rfl : k = j := Fin.ext (by omega)
  exact ⟨t, returned, target, count, framed⟩

/-- A CALL with room, then a RET from the state it leaves, whose fetch has changed opcode and pc: pc is the pushed
address, sp is as before, and nothing else but the pushed entry and the opcode differs. -/
theorem ret_after_push {s p : State} {w a : Word} {u : BitVec 4} (pushed : s.push? s.pc = some p) :
    ∃ t, exec (.ret u) { p with opcode := w, pc := a } = .next t ∧ t.pc = s.pc ∧ t.sp = s.sp ∧
      t = { s with pc := t.pc, stack := t.stack, opcode := w } := by
  obtain ⟨-, counted, entries, framed⟩ := State.push?_some pushed
  obtain ⟨t, popped, returned⟩ := exec_ret (s := { p with opcode := w, pc := a }) u (counted ▸ Nat.succ_pos _)
  obtain ⟨k, hk, count, target, framed'⟩ := State.pop?_some popped
  have slot : k.val = s.sp.val := Nat.succ.inj (hk.symm.trans counted)
  have sp : t.sp = s.sp := Fin.ext (count.trans slot)
  have pc : t.pc = s.pc := by
    rw [target]
    exact (entries k).trans (if_pos slot)
  refine ⟨t, returned, pc, sp, framed'.trans ?_⟩
  rw [sp, pc, framed', framed]

/-- Settles O15: the CALL pushes the address after it and jumps to the RET, which pops that entry. -/
theorem callThenReturnComesBack : Obligations.CallThenReturnComesBack := by
  intro s nnn u fetchable room calls even inMemory returns
  obtain ⟨p, pushed, called⟩ := exec_call (s := s.fetched) nnn room
  obtain ⟨-, -, -, framed⟩ := State.push?_some pushed
  have target := absolute_toNat nnn
  have fetchable' : CanFetch (p.setPc (absolute nnn)) := by
    refine ⟨?_, by rwa [State.setPc_pc, target], by rwa [State.setPc_pc, target]⟩
    rw [framed]
    exact fetchable.1
  have returns' : decodeWord (fetchWord (p.setPc (absolute nnn)).mem (absolute nnn)) = .ret u := by
    rw [framed]
    exact returns
  obtain ⟨t, returned, pc, sp, frame⟩ := ret_after_push (u := u)
    (w := fetchWord p.mem (absolute nnn)) (a := absolute nnn + 2) pushed
  refine ⟨_, t, by rw [step_of_canFetch fetchable, calls, called], ?_, pc, sp, ?_⟩
  · rw [step_of_canFetch fetchable', State.setPc_pc, returns']
    exact returned
  · rw [frame]
    rfl

/-! ### Skips (R105 to R108, R180, R181) -/

theorem exec_seVxKk (s : State) (x : Reg) (kk : Byte) : exec (.seVxKk x kk) s = .next (s.skipIf (s.v[x] == kk)) := rfl

theorem exec_sneVxKk (s : State) (x : Reg) (kk : Byte) : exec (.sneVxKk x kk) s = .next (s.skipIf (s.v[x] != kk)) := rfl

theorem exec_seVxVy (s : State) (x y : Reg) (u : BitVec 4) :
    exec (.seVxVy x y u) s = .next (s.skipIf (s.v[x] == s.v[y])) := rfl

theorem exec_sneVxVy (s : State) (x y : Reg) (u : BitVec 4) :
    exec (.sneVxVy x y u) s = .next (s.skipIf (s.v[x] != s.v[y])) := rfl

theorem exec_skpVx {s : State} {x : Reg} {k : Fin 16} (h : s.v[x].toNat = k.val) :
    exec (.skpVx x) s = .next (s.skipIf s.key[k]) := by
  rw [exec, execSkpVx, State.getV_eq, (keyNumber?_some _ k).2 h]

theorem exec_sknpVx {s : State} {x : Reg} {k : Fin 16} (h : s.v[x].toNat = k.val) :
    exec (.sknpVx x) s = .next (s.skipIf (!s.key[k])) := by
  rw [exec, execSknpVx, State.getV_eq, (keyNumber?_some _ k).2 h]

/-- pc after a skip that is taken. -/
theorem State.skipIf_taken (s : State) {c : Bool} (h : c = true) : (s.skipIf c).pc.toNat = (s.pc.toNat + 2) % 65536 := by
  rw [State.skipIf_pc, if_pos h, word_add_two_toNat]

/-- pc after a skip that is not taken. -/
theorem State.skipIf_not_taken (s : State) {c : Bool} (h : c = false) : (s.skipIf c).pc = s.pc := by
  rw [State.skipIf_pc, h, if_neg Bool.false_ne_true]

/-- A cycle from 0x1002, where a skip at 0xFFE can lead, fails the fetch check (D7). -/
theorem step_at_0x1002 {t : State} (noFault : t.fault = none) (h : t.pc = 0x1002) :
    step t = .next { t with fault := some ⟨.memoryOutOfRange, 0x1002, 0x1002⟩ } := by
  have record : FaultRecord.mk .memoryOutOfRange t.pc t.pc = ⟨.memoryOutOfRange, 0x1002, 0x1002⟩ := by rw [h]
  rw [step_pastTop noFault (by rw [h]; decide) (by rw [h]; decide), record]

/-- Settles O16: both are `skipIf` of their comparison. -/
theorem skipsOnImmediate : Obligations.SkipsOnImmediate := by
  refine fun s x kk => ⟨⟨_, exec_seVxKk s x kk, fun eq => s.skipIf_taken ?_, fun ne => s.skipIf_not_taken ?_,
      s.skipIf_onlyPc _, step_at_0x1002 (t := s.skipIf _)⟩,
    ⟨_, exec_sneVxKk s x kk, fun ne => s.skipIf_taken ?_, fun eq => s.skipIf_not_taken ?_,
      s.skipIf_onlyPc _, step_at_0x1002 (t := s.skipIf _)⟩⟩
  · exact beq_iff_eq.2 eq
  · exact beq_false_of_ne ne
  · exact bne_iff_ne.2 ne
  · exact bne_eq_false_iff_eq.2 eq

/-- Settles O17: both are `skipIf` of their comparison, in which the ignored nibble plays no part. -/
theorem skipsOnRegisters : Obligations.SkipsOnRegisters := by
  refine fun s x y u => ⟨⟨_, exec_seVxVy s x y u, fun eq => s.skipIf_taken ?_, fun ne => s.skipIf_not_taken ?_,
      s.skipIf_onlyPc _⟩,
    ⟨_, exec_sneVxVy s x y u, fun ne => s.skipIf_taken ?_, fun eq => s.skipIf_not_taken ?_, s.skipIf_onlyPc _⟩⟩
  · exact beq_iff_eq.2 eq
  · exact beq_false_of_ne ne
  · exact bne_iff_ne.2 ne
  · exact bne_eq_false_iff_eq.2 eq

/-- Settles O36: both are `skipIf` of the key that Vx names. -/
theorem keySkipsTestKeyState : Obligations.KeySkipsTestKeyState := by
  refine fun s x k named => ⟨⟨_, exec_skpVx named, s.skipIf_taken, s.skipIf_not_taken, s.skipIf_onlyPc _⟩,
    ⟨_, exec_sknpVx named, fun up => s.skipIf_taken ?_, fun down => s.skipIf_not_taken ?_, s.skipIf_onlyPc _⟩⟩
  · rw [up, Bool.not_false]
  · rw [down, Bool.not_true]

/-- Settles O37: a value above 15 names no key. -/
theorem keyNumberAbove15Faults : Obligations.KeyNumberAbove15Faults :=
  fun _ _ noKey => ⟨execSkpVx_noKey noKey, execSknpVx_noKey noKey⟩

/-! ### The key wait (R185) -/

theorem exec_ldVxK_pressed {s : State} {k : Fin 16} (x : Reg) (pressed : s.key[k] = true)
    (lowest : ∀ j : Fin 16, j < k → s.key[j] = false) : exec (.ldVxK x) s = .next (s.setV x (BitVec.ofNat 8 k.val)) := by
  rw [exec, execLdVxK, (s.lowestKey?_some k).2 ⟨pressed, lowest⟩]

theorem exec_ldVxK_waits {s : State} (x : Reg) (up : ∀ k : Fin 16, s.key[k] = false) :
    exec (.ldVxK x) s = .next (s.setPc (s.pc - 2)) := by
  rw [exec, execLdVxK, s.lowestKey?_none.2 up]

/-- Settles O39: `lowestKey?` finds the lowest pressed key; while there is none, the rewind undoes the fetch's advance. -/
theorem keyWaitTakesLowestOrRewinds : Obligations.KeyWaitTakesLowestOrRewinds := by
  refine ⟨fun s x k pressed lowest => ⟨_, exec_ldVxK_pressed x pressed lowest, ?_, s.setV_onlyRegs x _⟩,
    fun s x up => ⟨_, exec_ldVxK_waits x up, rfl, s.setPc_onlyPc _⟩, fun s x up fetchable waits => ?_⟩
  · have := k.isLt
    rw [s.setV_same, BitVec.toNat_ofNat]
    omega
  · rw [step_of_canFetch fetchable, waits, exec_ldVxK_waits (s := s.fetched) x up, s.fetched_pc_sub]
    rfl

end Sys2Proof.Machine
end

section
/-! The remaining register and index instructions (42_register_alu.md, 43_index_memory.md), each one write or two. -/

namespace Sys2Proof.Machine

/-! ### Registers: bitwise operations, VF as the destination, the random byte -/

theorem exec_orVxVy (s : State) (x y : Reg) : exec (.orVxVy x y) s = .next (s.setV x (s.v[x] ||| s.v[y])) := rfl

theorem exec_andVxVy (s : State) (x y : Reg) : exec (.andVxVy x y) s = .next (s.setV x (s.v[x] &&& s.v[y])) := rfl

theorem exec_xorVxVy (s : State) (x y : Reg) : exec (.xorVxVy x y) s = .next (s.setV x (s.v[x] ^^^ s.v[y])) := rfl

/-- Settles O19: each is one register write, and reads back bit by bit. -/
theorem bitwiseWritesVxOnly : Obligations.BitwiseWritesVxOnly := fun s x y =>
  ⟨⟨_, exec_orVxVy s x y, s.setV_onlyRegs x _, fun k => by rw [s.setV_same, BitVec.getLsbD_or]⟩,
    ⟨_, exec_andVxVy s x y, s.setV_onlyRegs x _, fun k => by rw [s.setV_same, BitVec.getLsbD_and]⟩,
    ⟨_, exec_xorVxVy s x y, s.setV_onlyRegs x _, fun k => by rw [s.setV_same, BitVec.getLsbD_xor]⟩⟩

/-- Two writes of VF change VF alone. -/
theorem State.setFlag_setFlag_onlyRegs (s : State) (b c : Byte) : OnlyRegs s ((s.setFlag b).setFlag c) [0xF] :=
  ⟨rfl, fun r hr => (s.setV_setFlag_onlyRegs 0xF b c).2 r (by simpa using hr)⟩

/-- Settles O21: result and flag both go to VF, and the later write stays. -/
theorem flagArithmeticOnVFItself : Obligations.FlagArithmeticOnVFItself := by
  intro s y
  refine ⟨⟨_, exec_addVxVy s 0xF y, s.setFlag_setFlag_onlyRegs _ _, ?_⟩,
    ⟨_, exec_subVxVy s 0xF y, s.setFlag_setFlag_onlyRegs _ _, ?_⟩,
    ⟨_, exec_subnVxVy s 0xF y, s.setFlag_setFlag_onlyRegs _ _, ?_⟩,
    ⟨_, exec_shrVx s 0xF y, s.setFlag_setFlag_onlyRegs _ _, ?_⟩,
    ⟨_, exec_shlVx s 0xF y, s.setFlag_setFlag_onlyRegs _ _, ?_⟩⟩
  · rw [State.setFlag_flag, carryFlag_eq]
  · rw [State.setFlag_flag, notBorrowFlag_eq]
  · rw [State.setFlag_flag, notBorrowFlag_eq]
  · rw [State.setV_same, byte_ushiftRight_one_toNat]
  · rw [State.setV_same, byte_shiftLeft_one_toNat]

theorem exec_addIVx (s : State) (x : Reg) : exec (.addIVx x) s = .next (s.setIndex (indexPlus s x)) := rfl

/-- Settles O23: one write of I, to the sum mod 65536. -/
theorem addIndexWrapsAt65536 : Obligations.AddIndexWrapsAt65536 :=
  fun s x => ⟨_, exec_addIVx s x, indexPlus_toNat s x, s.setIndex_onlyIndex _⟩

theorem exec_rndVxKk (s : State) (x : Reg) (kk : Byte) :
    exec (.rndVxKk x kk) s = .next (s.setV x (Config.randomByte s.draws &&& kk)).drawn := rfl

/-- Settles O24: one register write, of the byte drawn AND kk, and one count. -/
theorem randomByteIsMasked : Obligations.RandomByteIsMasked := by
  intro s x kk
  have masked : (s.setV x (Config.randomByte s.draws &&& kk)).drawn.v[x] = Config.randomByte s.draws &&& kk :=
    s.setV_same x _
  refine ⟨_, exec_rndVxKk s x kk, masked, fun k clear => ?_, rfl, rfl, fun r hr => s.setV_other x r _ hr⟩
  rw [masked, BitVec.getLsbD_and, clear, Bool.and_false]

end Sys2Proof.Machine
end
